-- ==== Sys2Proof/Word.lean ====
section
/-! DEFINITION. The word types of BitTimingEngine and the wrap-around arithmetic of the counter
(spec/00_scope.md R17, spec/41_sequencer.md R131). -/

namespace Sys2Proof

/-- The 8-bit ColorSample: `sr`, `pb` and the `byte` field of a command (spec/00_scope.md R17). -/
abbrev Byte := BitVec 8

/-- A bit count minus one: `rem`, `pn` and the `n` field of a command (spec/00_scope.md R17). -/
abbrev BitIndex := BitVec 3

/-- The command word on `cmd_word` (spec/30_encoding.md R80). -/
abbrev CmdWord := BitVec 11

/-- The 2-bit sequencer state (spec/30_encoding.md R85). -/
abbrev SeqCode := BitVec 2

/-! A value of the counter, of `mark` or of a threshold has a width `W` that is a constant of the
instance (spec/00_scope.md R6). It is held as a natural number, and every operation that makes one
reduces it modulo `2^W` (log entry 7). -/

/-- `(a + b) mod 2^w` (spec/00_scope.md R17). -/
def addWrap (w : Nat) (a b : Nat) : Nat := (a + b) % 2 ^ w

/-- `(a - b) mod 2^w` (spec/00_scope.md R17): the integer difference, reduced to `0 .. 2^w - 1`. -/
def subWrap (w : Nat) (a b : Nat) : Nat := (((a : Int) - (b : Int)) % (2 ^ w : Int)).toNat

end Sys2Proof
end

