-- ==== Sys2Proof/Syntax.lean ====
section
/-! DEFINITION. The operations of spec/opcode_table.json, one constructor per row
(spec/30_encoding.md R83). -/

namespace Sys2Proof

/-- The five rows of the opcode map. The first two are commands a host can put on the command port;
the last three are the sequencer's cases, selected by `fsm` as an opcode selects an instruction
(spec/30_encoding.md R83). -/
inductive Instr where
  /-- `WRITEBITS n+1, byte` (R80, R100): send the `n + 1` most significant bits of `byte`. -/
  | writebits (n : BitIndex) (byte : Byte)
  /-- `WRITEBYTE byte` (R91): `WRITEBITS 8, byte` under its own name. -/
  | writebyte (byte : Byte)
  /-- `SEQ.IDLE` (R121, R122). -/
  | seqIdle
  /-- `SEQ.HIGH` (R123). -/
  | seqHigh
  /-- `SEQ.LOW` (R124, R125, R126). -/
  | seqLow
deriving DecidableEq, Repr

end Sys2Proof
end

