-- ==== Sys2Proof/WellFormed.lean ====
section
/-! DEFINITION. Which terms of `Instr` are the name of a word. Every 11-bit word is legal
(spec/30_encoding.md R84), so the one check keeps a word from having two names. -/

namespace Sys2Proof

/-- `writebits 7 b` is well formed under the name `writebyte b` only: the words with `n = 7` match
the row WRITEBYTE of the opcode table (spec/30_encoding.md R83, R91). The MEANING of `writebits 7 b`
is given all the same (`Machine.execWritebits`). Log entry 10. -/
def Instr.wf : Instr → Bool
  | .writebits n _ => n != 7#3
  | .writebyte _ => true
  | .seqIdle => true
  | .seqHigh => true
  | .seqLow => true

end Sys2Proof
end

