-- ==== Sys2Proof/Decode.lean ====
section
/-! DEFINITION. From bits to operations and back (spec/30_encoding.md sections 1, 2 and 4). -/

namespace Sys2Proof

/-! ### The encoding of the sequencer state (spec/30_encoding.md R85) -/

/-- `IDLE = 0b00` (R85). -/
abbrev Fsm.idle : SeqCode := 0b00#2
/-- `HIGH = 0b01` (R85). -/
abbrev Fsm.high : SeqCode := 0b01#2
/-- `LOW = 0b10` (R85). -/
abbrev Fsm.low : SeqCode := 0b10#2
/-- `0b11` is reserved (R85, R86). -/
abbrev Fsm.reserved : SeqCode := 0b11#2

/-- Why bits name no operation. -/
inductive DecodeError where
  /-- `fsm = 0b11` (R86). Safe: the spec refuses the state. -/
  | reservedSequencerState
  /-- Bits are set above the 11 of a command word or the 2 of `fsm` (R80, R85). Safe. -/
  | tooWide
  /-- Neither one byte (format SEQ) nor two (format CMD). Safe: R82 gives no other length. -/
  | noSuchFormat
deriving DecidableEq, Repr

/-! ### Fields of a command word (spec/30_encoding.md R80) -/

/-- `cmd_word[10:8]`: the field `n`. -/
def CmdWord.nField (word : CmdWord) : BitIndex := word.extractLsb' 8 3

/-- `cmd_word[7:0]`: the field `byte`. -/
def CmdWord.byteField (word : CmdWord) : Byte := word.extractLsb' 0 8

/-- `{n, byte}` (R80, R90). -/
def CmdWord.make (n : BitIndex) (byte : Byte) : CmdWord := n ++ byte

/-- `bitCount = zext_4(n) + 1` (R81): 1 to 8. -/
def bitCount (n : BitIndex) : Nat := n.toNat + 1

/-! ### Decoding -/

/-- Any transfer on the command port is a command (R83, R84); a word with `n = 7` is read under its
own name WRITEBYTE (R91). -/
def decodeCmd (word : CmdWord) : Instr :=
  if CmdWord.nField word = 7#3 then .writebyte (CmdWord.byteField word)
  else .writebits (CmdWord.nField word) (CmdWord.byteField word)

/-- `fsm` selects the sequencer's case (R83); `0b11` is refused (R86). -/
def decodeSeq (f : SeqCode) : Except DecodeError Instr :=
  if f = Fsm.idle then .ok .seqIdle
  else if f = Fsm.high then .ok .seqHigh
  else if f = Fsm.low then .ok .seqLow
  else .error .reservedSequencerState

/-- The bits an operation is selected by: a word on the command port, or the register `fsm`
(R83, formats CMD and SEQ). -/
inductive Code where
  | cmd (word : CmdWord)
  | seq (f : SeqCode)
deriving DecidableEq, Repr

/-- The decoder: total on both formats. -/
def decode : Code → Except DecodeError Instr
  | .cmd word => .ok (decodeCmd word)
  | .seq f => decodeSeq f

/-- Bytes, the least significant first, as the code they hold: one byte is `fsm`, two are a command
word. The block stores no bytes (spec/20_memory.md R60); the layout is the opcode table's numbering
of bits. Log entry 11. -/
def codeOfBytes : List Byte → Except DecodeError Code
  | [a] => if a.toNat < 2 ^ 2 then .ok (.seq (a.setWidth 2)) else .error .tooWide
  | [a, b] =>
      if b.toNat < 2 ^ 3 then .ok (.cmd (CmdWord.make (b.setWidth 3) a)) else .error .tooWide
  | _ => .error .noSuchFormat

/-- The decoder on any bytes. -/
def decodeBytes (bytes : List Byte) : Except DecodeError Instr :=
  match codeOfBytes bytes with
  | .ok c => decode c
  | .error e => .error e

/-- The bytes of the number `w`, as many as `nbits` bits fill, the least significant first. -/
def tableBytes (nbits w : Nat) : List Byte :=
  (List.range ((nbits + 7) / 8)).map fun i => BitVec.ofNat 8 (w / 256 ^ i)

/-- The operation the decoder reads from a row's bits, numbered as spec/opcode_table.json numbers
them. -/
def decodeTableWord (nbits w : Nat) : Option Instr :=
  match decodeBytes (tableBytes nbits w) with
  | .ok i => some i
  | .error _ => none

/-! ### Encoding -/

/-- The bits of an operation, from R80 (`{n, byte}`), R91 (`0x700 + byte`) and R85. -/
def encode : Instr → Code
  | .writebits n byte => .cmd (CmdWord.make n byte)
  | .writebyte byte => .cmd (CmdWord.make 7#3 byte)
  | .seqIdle => .seq Fsm.idle
  | .seqHigh => .seq Fsm.high
  | .seqLow => .seq Fsm.low

/-! ### Textual notation (spec/30_encoding.md R90, R91) -/

/-- One hexadecimal digit, capital. -/
def hexDigit (d : Nat) : Char := "0123456789ABCDEF".toList.getD d '?'

/-- A byte as `0xHH`. -/
def hexByte (b : Byte) : String :=
  "0x" ++ String.ofList [hexDigit (b.toNat / 16), hexDigit (b.toNat % 16)]

/-- The spec's printed form of an operation (R90, R91); a sequencer case prints as its row's
mnemonic. -/
def Instr.text : Instr → String
  | .writebits n byte => "WRITEBITS " ++ toString (bitCount n) ++ ", " ++ hexByte byte
  | .writebyte byte => "WRITEBYTE " ++ hexByte byte
  | .seqIdle => "SEQ.IDLE"
  | .seqHigh => "SEQ.HIGH"
  | .seqLow => "SEQ.LOW"

end Sys2Proof
end

