-- ==== Sys2Proof/Config.lean ====
section
/-! DEFINITION. What is fixed for the life of an instance (the configuration record of
spec/10_state.md R45), the input ports of one cycle (spec/10_state.md R38), and the two constants
the spec leaves open: the clock frequency and what the host drives. -/

namespace Sys2Proof

/-- The configuration record (spec/00_scope.md R6 to R9, spec/10_state.md R45). A raw record may be
invalid; `Machine.Instance` pairs it with a proof of `CFG_OK`. -/
structure Config where
  /-- `W`, the width of the counter input and of `mark` (R6). -/
  w : Nat
  /-- `P1`, the first phase in cycles (R7). -/
  p1 : Nat
  /-- `P2`, the second phase in cycles (R7). -/
  p2 : Nat
  /-- `P3`, the third phase in cycles (R7). -/
  p3 : Nat
  /-- `ADJ`, the per-phase adjustment (R8). An integer here, so that `CFG_OK` can refuse a negative
  one. -/
  adj : Int
  /-- `PAD`, the padding cycles (R9): only 0 has a meaning. -/
  pad : Nat
deriving DecidableEq, Repr

/-- The defaults `W = 32`, `ADJ = 0`, `PAD = 0` (R6, R8, R9) with the phases `(3, 4, 3)` of the
source's one worked example (spec/95_test_vectors.md S1). The phases have no default in the spec:
DESIGN CHOICE, unsafe, log entry 2. -/
def Config.reference : Config := { w := 32, p1 := 3, p2 := 4, p3 := 3, adj := 0, pad := 0 }

/-- The inputs of one cycle, as the rising edge that ends the cycle samples them
(spec/10_state.md R38). `clk` is no field: one step is one rising edge (R14). -/
structure Inputs where
  /-- `rst`: synchronous reset, active high. -/
  rst : Bool
  /-- `cyc`: what the host drives on the counter port. The port carries it modulo `2^W`
  (`Machine.State.sampleAt`). -/
  cyc : Nat
  /-- `cmd_valid`: the host presents a command. -/
  cmdValid : Bool
  /-- `cmd_word`: the command, read only when `cmd_valid = 1`. -/
  cmdWord : CmdWord
deriving DecidableEq, Repr, Inhabited

/-- FREE VALUE. What the host drives in each cycle for which the state's `script` says nothing
(spec/00_scope.md R14: "chooses the inputs of every cycle"). No body: nothing can be proved of it.
Safe, log entry 3. -/
opaque Config.hostInputs : Nat → Inputs

/-- FREE VALUE. `F_CLK` in hertz (spec/00_scope.md R12): a named parameter with no default. No rule
depends on it and nothing in the step reads it. Safe, log entry 8. -/
opaque Config.fClk : Nat

end Sys2Proof
end

