-- ==== Sys2Proof/Machine/Timing.lean ====
section
/-! DEFINITION. The derived constants of a configuration and its validity predicate
(spec/00_scope.md R10, R11). -/

namespace Sys2Proof

/-- `T1 = P1 + ADJ` (R10). `toNat` changes nothing where `CFG_OK` holds. -/
def Config.t1 (c : Config) : Nat := ((c.p1 : Int) + c.adj).toNat

/-- `T2 = P2 + ADJ` (R10). -/
def Config.t2 (c : Config) : Nat := ((c.p2 : Int) + c.adj).toNat

/-- `T3 = P3 + ADJ` (R10). -/
def Config.t3 (c : Config) : Nat := ((c.p3 : Int) + c.adj).toNat

/-- `TOTAL = T1 + T2 + T3` (R10). -/
def Config.total (c : Config) : Nat := c.t1 + c.t2 + c.t3

/-- `TAIL(1) = T3`, `TAIL(0) = T2 + T3` (R10): the low tail of a bit. -/
def Config.tail (c : Config) (bit : Bool) : Nat := if bit then c.t3 else c.t2 + c.t3

/-- `CFG_OK`, clause by clause (R11). -/
def Config.ok (c : Config) : Bool :=
  decide (3 ≤ c.w) && decide (1 ≤ c.p1) && decide (1 ≤ c.p2) && decide (1 ≤ c.p3)
    && decide (0 ≤ c.adj) && decide (1 ≤ c.t3) && decide (c.pad = 0)
    && decide (c.total ≤ 2 ^ (c.w - 1) - 1)

/-- The duration of `cycles` clock cycles in seconds: one cycle lasts `1 / F_CLK`
(spec/70_reset_and_hazards.md R186). Informative only; no rule reads it. -/
def Config.seconds (cycles : Nat) : Rat := (cycles : Rat) / (Config.fClk : Rat)

end Sys2Proof
end

