-- ==== Sys2Proof/Machine/State.lean ====
section
/-! DEFINITION. The state of the block: the eight registers of spec/10_state.md R30, the instance's
configuration, and the model's own record of the host's inputs. -/

namespace Sys2Proof.Machine

/-- No constructor: the block raises no exception, has no cause code and no error output
(spec/60_exceptions.md R150), so no step and no meaning can end in a fault. Safe. -/
inductive Fault : Type
deriving DecidableEq, Repr

/-- The cases to which the spec gives no meaning (spec/00_scope.md R18), and the name for an
operation without a meaning. -/
inductive Refusal where
  /-- Raised by no arm now: an operation of the table whose meaning is not written. Safe. -/
  | notModelled (mnemonic : String)
  /-- Raised by `boot` for a configuration with `CFG_OK` false: no such instance exists
  (spec/00_scope.md R11, R18). Safe. -/
  | invalidConfiguration
  /-- Raised by the step in the state `fsm = 0b11` with `rst = 0` (spec/30_encoding.md R86).
  Safe. -/
  | reservedSequencerState
deriving DecidableEq, Repr

/-- An instance of the block: a configuration together with a proof of `CFG_OK`
(spec/00_scope.md R11). -/
structure Instance where
  cfg : Config
  valid : cfg.ok = true
deriving DecidableEq, Repr

/-- Plain data. `fsm` to `pb` are the eight registers of spec/10_state.md R30; `inst`, `cycle` and
`script` are the model's own. -/
structure State where
  /-- The instance's constants; never written (spec/70_reset_and_hazards.md R182). Log entry 1. -/
  inst : Instance
  /-- Sequencer state, 2 bits (R31). -/
  fsm : SeqCode
  /-- The level on the output pin (R32). -/
  pin : Bool
  /-- Shift register; `sr[7]` is the current bit (R33). -/
  sr : Byte
  /-- Bits of the current command after the current one (R34). -/
  rem : BitIndex
  /-- Counter value at which the current bit ends, `W` bits (R35). Log entry 7. -/
  mark : Nat
  /-- The pending register holds a command (R36). -/
  pv : Bool
  /-- Pending command's bit count minus one (R36). -/
  pn : BitIndex
  /-- Pending command's byte (R36). -/
  pb : Byte
  /-- MODEL'S OWN. The number of the current cycle (spec/00_scope.md R15); only
  `Config.hostInputs` is applied to it. -/
  cycle : Nat
  /-- MODEL'S OWN. The inputs of this cycle and of those after it, as far as they are planned; past
  its end the inputs are free (log entry 3). -/
  script : List Inputs
deriving DecidableEq, Repr

/-- The block right after reset, for an instance and a plan of inputs: every register at the value
of the table of spec/10_state.md R30. -/
def State.resetOf (inst : Instance) (script : List Inputs) : State :=
  { inst := inst, fsm := Fsm.idle, pin := false, sr := 0#8, rem := 0#3, mark := 0,
    pv := false, pn := 0#3, pb := 0#8, cycle := 0, script := script }

/-- The instance of `State.reset` (log entry 2). -/
def Instance.reference : Instance := { cfg := Config.reference, valid := by decide }

/-- The machine right after reset (spec/10_state.md R46, R47): the registers as R30 says, cycle 0,
no input planned. Its instance is the spec's default one with the phases of S1 (log entry 2). -/
def State.reset : State := State.resetOf Instance.reference []

end Sys2Proof.Machine
end

