-- ==== Sys2Proof/Machine/Operands.lean ====
section
/-! DEFINITION. What a step reads: the input ports (spec/10_state.md R38) and the current bit
(spec/10_state.md R33). -/

namespace Sys2Proof.Machine

/-- The inputs of the `j`-th cycle from now: from the script, and past its end the free value. -/
def State.inputAt (s : State) (j : Nat) : Inputs :=
  s.script.getD j (Config.hostInputs (s.cycle + j))

/-- `I_n`: the inputs of the current cycle (spec/00_scope.md R15). -/
def State.input (s : State) : Inputs := s.inputAt 0

/-- The counter sample of the `j`-th cycle from now: the port is `W` bits wide
(spec/10_state.md R38, spec/20_memory.md R67). -/
def State.sampleAt (s : State) (j : Nat) : Nat := (s.inputAt j).cyc % 2 ^ s.inst.cfg.w

/-- `cyc`: the counter sample of the current cycle. -/
def State.cyc (s : State) : Nat := s.sampleAt 0

/-- `sr[7]`: the bit being sent (spec/10_state.md R33). -/
def State.currentBit (s : State) : Bool := s.sr.msb

/-- `(v << 1) mod 2^8`: bit 7 is lost, bit 0 becomes 0 (spec/00_scope.md R17). -/
def shiftLeftOne (v : Byte) : Byte := v <<< 1

end Sys2Proof.Machine
end

