-- ==== Sys2Proof/Machine/Flags.lean ====
section
/-! DEFINITION. The block has no flags (spec/10_state.md R42). This file holds its outputs, all
combinational functions of the state, and of `rst` for `cmd_ready` (spec/10_state.md R40 to R44). -/

namespace Sys2Proof.Machine

/-- Output `pin`: the register, with no logic after it (R40). -/
def State.pinOut (s : State) : Bool := s.pin

/-- Output `pin_oe`: the constant 1 (R41). -/
def State.pinOe (_ : State) : Bool := true

/-- Output `busy = (fsm != IDLE) or (pv = 1)` (R43). -/
def State.busy (s : State) : Bool := (s.fsm != Fsm.idle) || s.pv

/-- Output `cmd_ready = (pv = 0) and (rst = 0)` (R44). -/
def State.cmdReady (s : State) : Bool := !s.pv && !s.input.rst

end Sys2Proof.Machine
end

