-- ==== Sys2Proof/Machine/Ops.lean ====
section
/-! DEFINITION. The operations the meanings share: the comparison (spec/00_scope.md R16), the two
thresholds (spec/41_sequencer.md R127, R128), starting a bit, taking, accepting, reset. The block
takes no exception and returns from none (spec/60_exceptions.md R150, R155, R156), so there is no
such operation here. -/

namespace Sys2Proof.Machine

/-- `reached(c, t) = ((c - t) mod 2^W) < 2^(W-1)` (spec/00_scope.md R16). -/
def reached (w : Nat) (c t : Nat) : Bool := decide (subWrap w c t < 2 ^ (w - 1))

/-- `dropPoint = (mark - TAIL(sr[7])) mod 2^W` (spec/41_sequencer.md R128). -/
def State.dropPoint (s : State) : Nat :=
  subWrap s.inst.cfg.w s.mark (s.inst.cfg.tail s.currentBit)

/-- `reached(cyc, dropPoint)` (R123). -/
def State.dropReached (s : State) : Bool := reached s.inst.cfg.w s.cyc s.dropPoint

/-- `reached(cyc, mark)` (R124, R125, R126). -/
def State.markReached (s : State) : Bool := reached s.inst.cfg.w s.cyc s.mark

/-- `startbit(v, r)` (spec/41_sequencer.md R127): `start` is the sample of this step. -/
def startBit (v : Byte) (r : BitIndex) (s : State) : State :=
  { s with
    pin := true
    mark := addWrap s.inst.cfg.w s.cyc s.inst.cfg.total
    sr := v
    rem := r
    fsm := Fsm.high }

/-- Take the pending command and start its first bit: `startbit(pb, pn)`, `pv <- 0`
(spec/40_writebits.md R102, spec/41_sequencer.md R122, R125). -/
def takePending (s : State) : State := { startBit s.pb s.pn s with pv := false }

/-- Drive the pin low and go to `LOW`: protocol step 3 (spec/41_sequencer.md R123). -/
def dropPin (s : State) : State := { s with pin := false, fsm := Fsm.low }

/-- The last bit has ended and nothing is pending: the last shift, then `IDLE`
(spec/41_sequencer.md R126). -/
def goIdle (s : State) : State :=
  { s with sr := shiftLeftOne s.sr, fsm := Fsm.idle, pin := false }

/-- Put a command into the pending register (spec/40_writebits.md R101). -/
def loadPending (n : BitIndex) (byte : Byte) (s : State) : State :=
  { s with pv := true, pn := n, pb := byte }

/-- A command presented on the port in this cycle: accepted where `cmd_ready = 1`, and otherwise
without a trace (spec/40_writebits.md R101, spec/20_memory.md R66). -/
def present (n : BitIndex) (byte : Byte) (s : State) : State :=
  if s.cmdReady then loadPending n byte s else s

/-- Every register takes its reset value (spec/10_state.md R46). -/
def resetRegisters (s : State) : State :=
  { s with fsm := Fsm.idle, pin := false, sr := 0#8, rem := 0#3, mark := 0,
           pv := false, pn := 0#3, pb := 0#8 }

/-- The clock edge has passed: the next cycle, with the inputs after these. -/
def nextCycle (s : State) : State := { s with cycle := s.cycle + 1, script := s.script.tail }

/-- The writes of the two parts of one step taken together (spec/41_sequencer.md R120): the
sequencer part's `a`, with the pending register as the port part's `b` has it. -/
def joinPending (a b : State) : State := { a with pv := b.pv, pn := b.pn, pb := b.pb }

/-- Making an instance (spec/00_scope.md R11, R18): the reset state of a configuration that
satisfies `CFG_OK`, and a refusal of any other. -/
def boot (c : Config) (script : List Inputs) : Host.Outcome State Fault Refusal :=
  if h : c.ok = true then .next (State.resetOf { cfg := c, valid := h } script)
  else .refused .invalidConfiguration

end Sys2Proof.Machine
end

