-- ==== Sys2Proof/Machine/Command.lean ====
section
/-! DEFINITION. The commands of the command port (spec/40_writebits.md). The meaning of a command is
its presentation on the port in one cycle; its bits are then sent by the sequencer's cases, as the
pseudocode of R100 says line by line. -/

namespace Sys2Proof.Machine

/-- `WRITEBITS n+1, byte` (R100, R101). -/
def execWritebits (n : BitIndex) (byte : Byte) (s : State) : Host.Outcome State Fault Refusal :=
  .next (present n byte s)

/-- `WRITEBYTE byte` is `WRITEBITS 8, byte` (spec/30_encoding.md R91). -/
def execWritebyte (byte : Byte) (s : State) : Host.Outcome State Fault Refusal :=
  .next (present 7#3 byte s)

end Sys2Proof.Machine
end

