-- ==== Sys2Proof/Machine/Sequencer.lean ====
section
/-! DEFINITION. The sequencer part of a step, one definition per value of `fsm`
(spec/41_sequencer.md section 3). -/

namespace Sys2Proof.Machine

/-- `SEQ.IDLE`: nothing where nothing is pending (R121), else the take (R122). -/
def execSeqIdle (s : State) : Host.Outcome State Fault Refusal :=
  .next (if s.pv then takePending s else s)

/-- `SEQ.HIGH`: the drop where `dropPoint` is reached (R123), else wait (R129). `mark` is not
tested. -/
def execSeqHigh (s : State) : Host.Outcome State Fault Refusal :=
  .next (if s.dropReached then dropPin s else s)

/-- `SEQ.LOW`: wait until `mark` is reached (R129); then the next bit of the command (R124), which
goes before the pending command (R125), and with neither `IDLE` (R126). -/
def execSeqLow (s : State) : Host.Outcome State Fault Refusal :=
  .next
    (if s.markReached then
      if s.rem ≠ 0#3 then startBit (shiftLeftOne s.sr) (s.rem - 1#3) s
      else if s.pv then takePending s
      else goIdle s
    else s)

end Sys2Proof.Machine
end

