-- ==== Sys2Proof/Machine/Dispatch.lean ====
section
/-! DEFINITION. One arm per row of spec/opcode_table.json. -/

namespace Sys2Proof.Machine

def exec (i : Instr) (s : State) : Host.Outcome State Fault Refusal :=
  match i with
  | .writebits n byte => Sys2Proof.Machine.execWritebits n byte s
  | .writebyte byte => Sys2Proof.Machine.execWritebyte byte s
  | .seqIdle => Sys2Proof.Machine.execSeqIdle s
  | .seqHigh => Sys2Proof.Machine.execSeqHigh s
  | .seqLow => Sys2Proof.Machine.execSeqLow s

end Sys2Proof.Machine
end

