-- ==== Sys2Proof/Machine/Cycle.lean ====
section
/-! DEFINITION. One clock edge (spec/41_sequencer.md R120), and placing an operation's bits where
the next edge finds them. -/

namespace Sys2Proof.Machine

/-- The port part's operation: a transfer happens when `cmd_valid = 1` and `cmd_ready = 1`
(spec/10_state.md R44), and the port carries commands only (spec/30_encoding.md R83). -/
def State.portInstr (s : State) : Option Instr :=
  if s.input.cmdValid && s.cmdReady then some (decodeCmd s.input.cmdWord) else none

/-- The port part beside the sequencer part's result `a`: the transfer, if there is one, reads the
OLD state `s`, and its writes join those of `a` (spec/41_sequencer.md R120). -/
def withPortPart (s a : State) : Host.Outcome State Fault Refusal :=
  match s.portInstr with
  | none => .next a
  | some p =>
      match exec p s with
      | .next b => .next (joinPending a b)
      | .fault f => .fault f
      | .refused r => .refused r

/-- Both parts of a step with `rst = 0` (spec/41_sequencer.md R120); `fsm = 0b11` is refused
(spec/30_encoding.md R86). -/
def bothParts (s : State) : Host.Outcome State Fault Refusal :=
  match decodeSeq s.fsm with
  | .error _ => .refused .reservedSequencerState
  | .ok q =>
      match exec q s with
      | .next a => withPortPart s a
      | .fault f => .fault f
      | .refused r => .refused r

/-- One rising edge of `clk` (spec/41_sequencer.md R120): reset has priority over every other rule
(spec/10_state.md R46). -/
def clockEdge (s : State) : Host.Outcome State Fault Refusal :=
  if s.input.rst then .next (nextCycle (resetRegisters s))
  else
    match bothParts s with
    | .next t => .next (nextCycle t)
    | .fault f => .fault f
    | .refused r => .refused r

/-- The inputs of the current cycle as far as they are planned, else all of them 0: what
`placeWord` starts from. -/
def State.plannedInput (s : State) : Inputs :=
  s.script.headD { rst := false, cyc := 0, cmdValid := false, cmdWord := 0 }

/-- The bits `w` of an operation placed where the next edge selects it: one byte is the register
`fsm`, with no command presented; two bytes are a command presented on the port to an empty pending
register. Log entry 12. -/
def placeWord (s : State) (nbits w : Nat) : State :=
  if nbits ≤ 8 then
    { s with
      fsm := BitVec.ofNat 2 w
      script := { s.plannedInput with rst := false, cmdValid := false } :: s.script.tail }
  else
    { s with
      pv := false
      script :=
        { s.plannedInput with rst := false, cmdValid := true, cmdWord := BitVec.ofNat 11 w }
          :: s.script.tail }

end Sys2Proof.Machine
end

