-- ==== Sys2Proof/Machine/Step.lean ====
section
/-! DEFINITION. The machine's step: one rising edge of `clk` (spec/00_scope.md R14, R15). -/

namespace Sys2Proof.Machine

/-- `S_(n+1) = step(S_n, I_n)` (spec/00_scope.md R15), the inputs `I_n` read from the state's
script. -/
def step (s : State) : Host.Outcome State Fault Refusal := clockEdge s

/-- The bits of an operation placed where the next step selects it. -/
def State.withFetchWord (s : State) (nbits w : Nat) : State := placeWord s nbits w

end Sys2Proof.Machine
end

