-- ==== Sys2Proof/Safety.lean ====
section
/-! DEFINITION. The terms claims are stated in: runs of many cycles and what is observed of them,
the host's duties as premises (spec/70_reset_and_hazards.md section 3), the invariants of
spec/10_state.md R48, and the symbols of the line code (spec/30_encoding.md section 3). -/

namespace Sys2Proof.Machine

/-! ### Runs -/

/-- The outcome of `k` clock edges, stopping at a refusal. -/
def cycles : Nat → State → Host.Outcome State Fault Refusal
  | 0, s => .next s
  | k + 1, s =>
      match step s with
      | .next t => cycles k t
      | .fault f => .fault f
      | .refused r => .refused r

/-- What an observer of the pin sees `k` cycles from now (spec/00_scope.md R15); `none` where the
run has been refused. -/
def pinAfter (k : Nat) (s : State) : Option Bool :=
  match cycles k s with
  | .next t => some t.pinOut
  | .fault _ => none
  | .refused _ => none

/-- The eight registers of spec/10_state.md R30, and nothing of the model's own. -/
structure Registers where
  fsm : SeqCode
  pin : Bool
  sr : Byte
  rem : BitIndex
  mark : Nat
  pv : Bool
  pn : BitIndex
  pb : Byte
deriving DecidableEq, Repr

/-- The registers of a state. -/
def State.registers (s : State) : Registers :=
  { fsm := s.fsm, pin := s.pin, sr := s.sr, rem := s.rem, mark := s.mark,
    pv := s.pv, pn := s.pn, pb := s.pb }

/-! ### Events of one cycle -/

/-- The sequencer takes the pending command at the edge ending this cycle, if `rst = 0`
(spec/40_writebits.md R102). -/
def State.takes (s : State) : Bool :=
  s.pv && (s.fsm == Fsm.idle || (s.fsm == Fsm.low && s.rem == 0#3 && s.markReached))

/-- A command is accepted at the edge ending this cycle (spec/10_state.md R44). -/
def State.accepts (s : State) : Bool := s.input.cmdValid && s.cmdReady

/-- The value of the shift register with which a bit starts at the edge ending this cycle, if one
does and `rst = 0` (spec/41_sequencer.md R122, R124, R125); its bit 7 is the bit. -/
def State.startsBit (s : State) : Option Byte :=
  if s.takes then some s.pb
  else if s.fsm == Fsm.low && s.markReached && s.rem != 0#3 then some (shiftLeftOne s.sr)
  else none

/-- A command: bit count minus one, and byte. -/
abbrev Cmd := BitIndex × Byte

/-- The command in the pending register (spec/10_state.md R36). -/
def State.pending (s : State) : List Cmd := if s.pv then [(s.pn, s.pb)] else []

/-- The command accepted at the edge ending this cycle, if any. -/
def State.acceptedNow (s : State) : List Cmd :=
  if s.accepts then [(CmdWord.nField s.input.cmdWord, CmdWord.byteField s.input.cmdWord)] else []

/-- The command taken at the edge ending this cycle, if any. -/
def State.takenNow (s : State) : List Cmd := if s.takes then [(s.pn, s.pb)] else []

/-- What `f` lists in each of the next `k` cycles, the earliest first. -/
def logOf (f : State → List Cmd) : Nat → State → List Cmd
  | 0, _ => []
  | k + 1, s =>
      match step s with
      | .next t => f s ++ logOf f k t
      | .fault _ => []
      | .refused _ => []

/-! ### The environment (host duties, spec/70_reset_and_hazards.md section 3) -/

/-- `rst = 0` in the next `k` cycles (R183). -/
def NoReset (s : State) (k : Nat) : Prop := ∀ j, j < k → (s.inputAt j).rst = false

/-- No command is presented in the next `k` cycles. -/
def NoCommand (s : State) (k : Nat) : Prop := ∀ j, j < k → (s.inputAt j).cmdValid = false

/-- The nominal environment over the next `k` edges (R177): at each of them `cyc` rises by
exactly 1, modulo `2^W`. -/
def CountsByOne (s : State) (k : Nat) : Prop :=
  ∀ j, j < k → s.sampleAt (j + 1) = addWrap s.inst.cfg.w (s.sampleAt j) 1

/-- How far `cyc` rises at the edge ending the `j`-th cycle from now, modulo `2^W`. -/
def State.riseAt (s : State) (j : Nat) : Nat :=
  subWrap s.inst.cfg.w (s.sampleAt (j + 1)) (s.sampleAt j)

/-- The weaker environment of R177 over the next `k` edges: at each of them `cyc` rises by some
amount between 0 and `2^(W-1) - 1`, modulo `2^W`. A counter that pauses is in it. -/
def CountsWeakly (s : State) (k : Nat) : Prop :=
  ∀ j, j < k → s.riseAt j ≤ 2 ^ (s.inst.cfg.w - 1) - 1

/-- How far `cyc` rises in all over the next `k` edges. A claim that something happens at last asks
for enough of it: the counter "must also keep moving" (R177). -/
def State.risen (s : State) : Nat → Nat
  | 0 => 0
  | k + 1 => s.risen k + s.riseAt k

/-! ### Invariants -/

/-- The four invariants of spec/10_state.md R48. -/
structure Inv (s : State) : Prop where
  legal : s.fsm = Fsm.idle ∨ s.fsm = Fsm.high ∨ s.fsm = Fsm.low
  pinHigh : s.pin = true ↔ s.fsm = Fsm.high
  idleRem : s.fsm = Fsm.idle → s.rem = 0#3
  quietLow : s.busy = false → s.pin = false

/-- `mark` is a `W`-bit value (spec/10_state.md R30). -/
def MarkInRange (s : State) : Prop := s.mark < 2 ^ s.inst.cfg.w

/-! ### The line code -/

/-- How many cycles the pin is high in the symbol of a bit: `TOTAL - TAIL(bit)`
(spec/41_sequencer.md R132). -/
def Config.highFor (c : Config) (bit : Bool) : Nat := c.total - c.tail bit

/-- The bit of `byte` sent as the `i`-th of a command: `byte[7 - i]` (spec/40_writebits.md R103). -/
def sentBit (byte : Byte) (i : Nat) : Bool := byte.getLsbD (7 - i)

end Sys2Proof.Machine
end

