-- ==== Sys2Proof/Certificates/Slice0/Obligations.lean ====
section
/-! DEFINITION. The statements for the provers: what the numbered rules of spec/ say this machine
does. OBLIGATIONS.json lists them. -/

section
open Sys2Proof Sys2Proof.Machine

/-! ### Encoding -/

/-- Decode and encode agree on every well-formed operation (R80, R85, R91). -/
def Obligations.DecodeOfEncodeIsTheOperation : Prop :=
  ∀ i : Instr, i.wf = true → decode (encode i) = .ok i

/-- Every code that decodes is the encoding of what it decodes to, which is well formed: no bit of a
code is dropped and no two codes name one operation (R80, R82, R85). -/
def Obligations.EncodeOfDecodeIsTheCode : Prop :=
  ∀ (c : Code) (i : Instr), decode c = .ok i → encode i = c ∧ i.wf = true

/-- Words written out from the tables of R80, R85 and R91 decode to the operations they stand for,
and the reserved state to none. -/
def Obligations.WrittenWordsDecode : Prop :=
  decodeTableWord 16 0b010_11000000 = some (.writebits 2 0xC0) ∧
  decodeTableWord 16 0b000_10000000 = some (.writebits 0 0x80) ∧
  decodeTableWord 16 0b111_10100101 = some (.writebyte 0xA5) ∧
  decodeTableWord 8 0b00 = some .seqIdle ∧
  decodeTableWord 8 0b01 = some .seqHigh ∧
  decodeTableWord 8 0b10 = some .seqLow ∧
  decodeTableWord 8 0b11 = none

/-- R84, R81: every one of the 2^11 words is a command. Presented to a block whose `cmd_ready` is 1
it is accepted, with `n = word[10:8]` and `byte = word[7:0]`, and its bit count is 1 to 8. -/
def Obligations.EveryWordIsACommand : Prop :=
  ∀ (word : CmdWord) (s : State), s.cmdReady = true →
    exec (decodeCmd word) s =
        .next { s with
          pv := true
          pn := BitVec.ofNat 3 (word.toNat / 256)
          pb := BitVec.ofNat 8 (word.toNat % 256) } ∧
      1 ≤ bitCount (BitVec.ofNat 3 (word.toNat / 256)) ∧
      bitCount (BitVec.ofNat 3 (word.toNat / 256)) ≤ 8

/-! ### The two commands -/

/-- R101: a WRITEBITS command presented where `cmd_ready = 1` is accepted, whatever `fsm` is; the
three registers of the pending register are all it writes. -/
def Obligations.WritebitsIsAccepted : Prop :=
  ∀ (n : BitIndex) (byte : Byte) (s : State), s.pv = false → s.input.rst = false →
    exec (.writebits n byte) s = .next { s with pv := true, pn := n, pb := byte }

/-- R101, R91: WRITEBYTE is accepted as a command of eight bits. -/
def Obligations.WritebyteIsAccepted : Prop :=
  ∀ (byte : Byte) (s : State), s.pv = false → s.input.rst = false →
    exec (.writebyte byte) s = .next { s with pv := true, pn := 7#3, pb := byte }

/-- R91: `WRITEBYTE 0xHH` is `WRITEBITS 8, 0xHH`, word `0x700 + byte`; the spec's example is the
byte 0xFF. -/
def Obligations.WritebyteIsWritebitsEight : Prop :=
  ∀ byte : Byte,
    bitCount 7#3 = 8 ∧
    (∀ s : State, exec (.writebyte byte) s = exec (.writebits 7#3 byte) s) ∧
    encode (.writebyte byte) = .cmd (BitVec.ofNat 11 (0x700 + byte.toNat)) ∧
    encode (.writebits 7#3 byte) = .cmd (BitVec.ofNat 11 (0x700 + byte.toNat)) ∧
    encode (.writebyte 0xFF) = .cmd 0x7FF

/-- R66, R101: a command presented while `cmd_ready = 0` leaves no trace, whichever command it is. -/
def Obligations.UnreadyCommandLeavesNoTrace : Prop :=
  ∀ (n : BitIndex) (byte : Byte) (s : State), s.pv = true ∨ s.input.rst = true →
    exec (.writebits n byte) s = .next s ∧ exec (.writebyte byte) s = .next s

/-! ### The sequencer's cases -/

/-- R121: SEQ.IDLE with nothing pending writes nothing. -/
def Obligations.SeqIdleWithNothingPending : Prop :=
  ∀ s : State, s.pv = false → exec .seqIdle s = .next s

/-- R122: SEQ.IDLE takes the pending command and starts its first bit at this cycle's sample. -/
def Obligations.SeqIdleTakes : Prop :=
  ∀ s : State, s.pv = true →
    exec .seqIdle s = .next { s with
      pin := true
      mark := (s.cyc + s.inst.cfg.total) % 2 ^ s.inst.cfg.w
      sr := s.pb
      rem := s.pn
      fsm := Fsm.high
      pv := false }

/-- R123: SEQ.HIGH drops the pin and goes to LOW where the drop point is reached, whatever `mark`
and `pv` are, and waits elsewhere. -/
def Obligations.SeqHighDropsOrWaits : Prop :=
  ∀ s : State,
    (reached s.inst.cfg.w s.cyc s.dropPoint = true →
      exec .seqHigh s = .next { s with pin := false, fsm := Fsm.low }) ∧
    (reached s.inst.cfg.w s.cyc s.dropPoint = false → exec .seqHigh s = .next s)

/-- R129: in LOW with `mark` not reached the sequencer part writes nothing, whatever `rem` and `pv`
are. -/
def Obligations.SeqLowWaits : Prop :=
  ∀ s : State, reached s.inst.cfg.w s.cyc s.mark = false → exec .seqLow s = .next s

/-- R124: SEQ.LOW starts the next bit of the same command, whatever is pending: the byte shifted
left with 0 entering, one bit fewer to come, the mark `TOTAL` after this cycle's sample. -/
def Obligations.SeqLowStartsNextBit : Prop :=
  ∀ s : State, reached s.inst.cfg.w s.cyc s.mark = true → 0 < s.rem.toNat →
    exec .seqLow s = .next { s with
      pin := true
      mark := (s.cyc + s.inst.cfg.total) % 2 ^ s.inst.cfg.w
      sr := BitVec.ofNat 8 (2 * s.sr.toNat)
      rem := BitVec.ofNat 3 (s.rem.toNat - 1)
      fsm := Fsm.high }

/-- R125: SEQ.LOW at the end of the last bit takes the pending command in the same step. -/
def Obligations.SeqLowChains : Prop :=
  ∀ s : State, reached s.inst.cfg.w s.cyc s.mark = true → s.rem = 0 → s.pv = true →
    exec .seqLow s = .next { s with
      pin := true
      mark := (s.cyc + s.inst.cfg.total) % 2 ^ s.inst.cfg.w
      sr := s.pb
      rem := s.pn
      fsm := Fsm.high
      pv := false }

/-- R126: SEQ.LOW at the end of the last bit with nothing pending shifts once more and goes idle;
`rem` and `mark` keep their values. -/
def Obligations.SeqLowGoesIdle : Prop :=
  ∀ s : State, reached s.inst.cfg.w s.cyc s.mark = true → s.rem = 0 → s.pv = false →
    exec .seqLow s = .next { s with
      sr := BitVec.ofNat 8 (2 * s.sr.toNat)
      fsm := Fsm.idle
      pin := false }

/-! ### The step -/

/-- R120: a step with `rst = 0` runs the operation that `fsm` selects; where a transfer happens on
the command port it runs the command of the word too, on the SAME old state, and the writes of the
two are taken together. Then the next cycle begins. -/
def Obligations.StepRunsTheSelectedOperations : Prop :=
  ∀ (s : State) (i : Instr), s.input.rst = false → decode (.seq s.fsm) = .ok i →
    i.wf = true ∧ ∃ a, exec i s = .next a ∧
      (¬(s.input.cmdValid = true ∧ s.pv = false) → step s = .next (nextCycle a)) ∧
      (s.input.cmdValid = true ∧ s.pv = false →
        ∃ c b, decode (.cmd s.input.cmdWord) = .ok c ∧ c.wf = true ∧ exec c s = .next b ∧
          step s = .next (nextCycle { a with pv := b.pv, pn := b.pn, pb := b.pb }))

/-- R14, R120: the step is total. It answers a next state exactly where `rst = 1` or `fsm` is one of
its three values, and otherwise it refuses the reserved state. That an edge with `rst = 1` has a
next state at `fsm = 0b11` too is the model's reading of R46 ("whatever the state ... are") against
R18 and R86, which refuse that state: log entry 6 (DEDUCED). -/
def Obligations.StepIsTotal : Prop :=
  ∀ s : State,
    ((∃ t, step s = .next t) ↔ (s.input.rst = true ∨ s.fsm ≠ 0b11#2)) ∧
    (s.input.rst = false → s.fsm = 0b11#2 → step s = .refused .reservedSequencerState)

/-- R86: no rule writes `fsm = 0b11` and reset does not produce it, so no run of one cycle or more
ends in it; it decodes to no operation, and the step refuses it. (That an edge with `rst = 1` still
resets it is the model's reading of R46, log entry 6.) -/
def Obligations.ReservedStateIsUnreachable : Prop :=
  (∀ (s t : State) (k : Nat), cycles (k + 1) s = .next t → t.fsm ≠ 0b11#2) ∧
  (∀ (inst : Instance) (script : List Inputs), (State.resetOf inst script).fsm ≠ 0b11#2) ∧
  (∀ i : Instr, decode (.seq 0b11#2) ≠ .ok i) ∧
  (∀ s : State, s.fsm = 0b11#2 → s.input.rst = false →
    step s = .refused .reservedSequencerState)

/-- R46: at an edge with `rst = 1` every register takes its reset value, whatever the state and the
other inputs are, and no command is accepted. -/
def Obligations.ResetEdgeClearsEveryRegister : Prop :=
  ∀ s : State, s.input.rst = true →
    s.cmdReady = false ∧
    ∃ t, step s = .next t ∧
      t.registers = ⟨0b00#2, false, 0#8, 0#3, 0, false, 0#3, 0#8⟩

/-- R171: after a reset edge the block is in the reset state, with `pin`, `pv` and `busy` 0 and
`cmd_ready` 1 while `rst = 0`, and it stays so until a command is presented or it is reset again. -/
def Obligations.ResetBlockWaitsForACommand : Prop :=
  ∀ (s u : State) (k : Nat), s.input.rst = true → step s = .next u →
    NoReset u k → NoCommand u k →
    ∃ t, cycles k u = .next t ∧
      t.registers = ⟨0b00#2, false, 0#8, 0#3, 0, false, 0#3, 0#8⟩ ∧
      t.busy = false ∧ t.pinOut = false ∧ t.pinOe = true ∧
      (t.input.rst = false → t.cmdReady = true)

/-- R130: every transition of `fsm`, each with its condition. -/
def Obligations.SequencerTransitions : Prop :=
  ∀ s t : State, step s = .next t →
    (s.input.rst = true → t.fsm = 0b00#2) ∧
    (s.input.rst = false →
      (s.fsm = 0b00#2 → s.pv = false → t.fsm = 0b00#2) ∧
      (s.fsm = 0b00#2 → s.pv = true → t.fsm = 0b01#2) ∧
      (s.fsm = 0b01#2 → reached s.inst.cfg.w s.cyc s.dropPoint = false → t.fsm = 0b01#2) ∧
      (s.fsm = 0b01#2 → reached s.inst.cfg.w s.cyc s.dropPoint = true → t.fsm = 0b10#2) ∧
      (s.fsm = 0b10#2 → reached s.inst.cfg.w s.cyc s.mark = false → t.fsm = 0b10#2) ∧
      (s.fsm = 0b10#2 → reached s.inst.cfg.w s.cyc s.mark = true →
        (s.rem ≠ 0 ∨ s.pv = true) → t.fsm = 0b01#2) ∧
      (s.fsm = 0b10#2 → reached s.inst.cfg.w s.cyc s.mark = true →
        s.rem = 0 → s.pv = false → t.fsm = 0b00#2))

/-- R44, R40, R41, R43: the outputs, and that a command is accepted at an edge (the pending register
fills) exactly where `cmd_valid = 1` and `cmd_ready = 1`. -/
def Obligations.OutputsAndHandshake : Prop :=
  ∀ s : State,
    (s.cmdReady = true ↔ (s.pv = false ∧ s.input.rst = false)) ∧
    s.pinOut = s.pin ∧ s.pinOe = true ∧
    (s.busy = true ↔ (s.fsm ≠ 0b00#2 ∨ s.pv = true)) ∧
    (∀ t, step s = .next t →
      ((s.pv = false ∧ t.pv = true) ↔ (s.input.cmdValid = true ∧ s.cmdReady = true)))

/-- R101: acceptance. With `rst = 0`, a command presented while `pv = 0` is accepted, whatever `fsm`
is, and no take happens at the same edge; otherwise `pn` and `pb` keep their values and `pv`
changes only by a take. -/
def Obligations.AcceptanceAtAnEdge : Prop :=
  ∀ s t : State, s.input.rst = false → step s = .next t →
    (s.input.cmdValid = true → s.pv = false →
      t.pv = true ∧ t.pn = s.input.cmdWord.extractLsb' 8 3 ∧
      t.pb = s.input.cmdWord.extractLsb' 0 8 ∧ s.takes = false) ∧
    (¬(s.input.cmdValid = true ∧ s.pv = false) →
      t.pn = s.pn ∧ t.pb = s.pb ∧ (s.takes = false → t.pv = s.pv) ∧
      (s.takes = true → t.pv = false))

/-- R102: a take happens with `rst = 0` exactly where `pv = 1` and the sequencer is idle, or is low
with `rem = 0` and the mark reached. At a take the pending command moves to `sr` and `rem`, `pv`
falls, the first bit starts in the same step, and `cmd_ready` rises in the next cycle. -/
def Obligations.TakeOfThePendingCommand : Prop :=
  ∀ s t : State, s.input.rst = false → step s = .next t →
    ((s.pv = true ∧ t.pv = false) ↔
      (s.pv = true ∧ (s.fsm = 0b00#2 ∨
        (s.fsm = 0b10#2 ∧ s.rem = 0 ∧ reached s.inst.cfg.w s.cyc s.mark = true)))) ∧
    (s.pv = true → t.pv = false →
      t.sr = s.pb ∧ t.rem = s.pn ∧ t.pin = true ∧ t.fsm = 0b01#2 ∧
      t.mark = (s.cyc + s.inst.cfg.total) % 2 ^ s.inst.cfg.w ∧
      (t.input.rst = false → t.cmdReady = true))

/-- R35, R127: `mark` is written only at a step that starts a bit, with `TOTAL` added to the sample
of that very step (not to the old mark), and only such a step drives the pin high. -/
def Obligations.MarkIsWrittenAtBitStartOnly : Prop :=
  ∀ s t : State, s.input.rst = false → step s = .next t →
    (∀ v, s.startsBit = some v →
      t.mark = (s.cyc + s.inst.cfg.total) % 2 ^ s.inst.cfg.w ∧ t.sr = v ∧ t.pin = true ∧
      t.fsm = 0b01#2) ∧
    (s.startsBit = none → t.mark = s.mark ∧ (t.pin = true → s.pin = true))

/-- R128: the drop point by the value of the current bit, and constant during the high part. -/
def Obligations.DropPointOfTheCurrentBit : Prop :=
  ∀ s : State,
    (s.sr.getLsbD 7 = true →
      (s.dropPoint : Int) = ((s.mark : Int) - s.inst.cfg.t3) % 2 ^ s.inst.cfg.w) ∧
    (s.sr.getLsbD 7 = false →
      (s.dropPoint : Int) =
        ((s.mark : Int) - (s.inst.cfg.t2 + s.inst.cfg.t3)) % 2 ^ s.inst.cfg.w) ∧
    (∀ t, s.fsm = 0b01#2 → step s = .next t → t.fsm = 0b01#2 →
      t.sr = s.sr ∧ t.dropPoint = s.dropPoint)

/-- R43, R185 item 5: with `rst = 0`, `busy` falls only at the step at which the last bit's mark is
reached with nothing pending and nothing accepted; the block is then idle with the pin low. -/
def Obligations.BusyFallsAtTheLastMark : Prop :=
  ∀ s t : State, s.input.rst = false → step s = .next t → s.busy = true → t.busy = false →
    s.fsm = 0b10#2 ∧ reached s.inst.cfg.w s.cyc s.mark = true ∧ s.rem = 0 ∧ s.pv = false ∧
    s.input.cmdValid = false ∧ t.fsm = 0b00#2 ∧ t.pin = false

/-! ### Invariants -/

/-- R48: every step keeps the four invariants. -/
def Obligations.InvariantsAreKept : Prop :=
  ∀ s t : State, Inv s → step s = .next t → Inv t

/-- R48: they hold right after reset, and after every reset edge whatever the state before it. -/
def Obligations.InvariantsHoldAfterReset : Prop :=
  Inv State.reset ∧
  (∀ (inst : Instance) (script : List Inputs), Inv (State.resetOf inst script)) ∧
  (∀ s t : State, s.input.rst = true → step s = .next t → Inv t)

/-- R6, R30: `mark` stays a `W`-bit value over any run, and holds one after reset. That it is a
natural number which could be out of range is the model's choice (log entry 7). -/
def Obligations.MarkStaysInRange : Prop :=
  (∀ (s t : State) (k : Nat), MarkInRange s → cycles k s = .next t → MarkInRange t) ∧
  MarkInRange State.reset

/-- R182: no run changes the configuration. -/
def Obligations.ConfigurationNeverChanges : Prop :=
  ∀ (s t : State) (k : Nat), cycles k s = .next t → t.inst = s.inst

/-- R11: an instance exists exactly for the configurations that satisfy `CFG_OK`, and any other is
refused. -/
def Obligations.InstanceExistsExactlyWhenCfgOk : Prop :=
  ∀ (c : Config) (script : List Inputs),
    ((∃ t, boot c script = .next t ∧ t.inst.cfg = c ∧
        t.registers = ⟨0b00#2, false, 0#8, 0#3, 0, false, 0#3, 0#8⟩) ↔
      (3 ≤ c.w ∧ 1 ≤ c.p1 ∧ 1 ≤ c.p2 ∧ 1 ≤ c.p3 ∧ 0 ≤ c.adj ∧ 1 ≤ (c.p3 : Int) + c.adj ∧
        c.pad = 0 ∧ (c.p1 : Int) + c.p2 + c.p3 + 3 * c.adj ≤ 2 ^ (c.w - 1) - 1)) ∧
    ((∀ t, boot c script ≠ .next t) → boot c script = .refused .invalidConfiguration)

/-! ### Arithmetic -/

/-- R16: `reached(c, t)` is true when `c` is equal to `t` or up to `2^(W-1) - 1` counts past it,
across a wrap of the counter, and false for every other count. -/
def Obligations.ReachedIsTheHalfRange : Prop :=
  ∀ (w t e : Nat), 1 ≤ w → e < 2 ^ w →
    (reached w ((t + e) % 2 ^ w) (t % 2 ^ w) = true ↔ e ≤ 2 ^ (w - 1) - 1)

/-- R134: a threshold set `d ≤ TOTAL` counts ahead is not reached before the counter has risen by
`d`, is reached at exactly that count, and stays so for the next `2^(W-1) - 1` counts, wherever the
counter wraps. -/
def Obligations.ReachedIsExact : Prop :=
  ∀ (i : Instance) (s d e : Nat), d ≤ i.cfg.total →
    (e < d →
      subWrap i.cfg.w ((s + e) % 2 ^ i.cfg.w) ((s + d) % 2 ^ i.cfg.w) = 2 ^ i.cfg.w - (d - e) ∧
      reached i.cfg.w ((s + e) % 2 ^ i.cfg.w) ((s + d) % 2 ^ i.cfg.w) = false) ∧
    (d ≤ e → e ≤ d + (2 ^ (i.cfg.w - 1) - 1) →
      reached i.cfg.w ((s + e) % 2 ^ i.cfg.w) ((s + d) % 2 ^ i.cfg.w) = true)

/-- R177, the arithmetic of one threshold and two samples: if a threshold is not reached at one
sample and is at the next, `d ≤ 2^(W-1) - 1` counts on, then the second sample is past it by at most
`d - 1`. When the block acts on such a sample is said by FallingEdgeLateness and
RisingEdgeLatenessInLow. -/
def Obligations.LatenessIsLessThanTheIncrease : Prop :=
  ∀ (w c t d : Nat), 1 ≤ w → reached w c t = false → d ≤ 2 ^ (w - 1) - 1 →
    reached w ((c + d) % 2 ^ w) t = true →
    1 ≤ d ∧ subWrap w ((c + d) % 2 ^ w) t ≤ d - 1

/-! ### Timing -/

/-- R132: exact timing of one bit in the nominal environment. The bit starts at the step of cycle
`m` (`s`); the pin is high in the cycles `m + 1` to `m + T1 + T2` for a 1 and `m + 1` to `m + T1`
for a 0, and low up to `m + TOTAL`; no bit starts before cycle `m + TOTAL`, where the mark is
reached at the sample `s + TOTAL`. -/
def Obligations.BitTimingIsExact : Prop :=
  ∀ (s : State) (v : Byte), s.startsBit = some v →
    NoReset s s.inst.cfg.total → CountsByOne s s.inst.cfg.total →
    ∀ j, 1 ≤ j → j ≤ s.inst.cfg.total →
      ∃ t, cycles j s = .next t ∧ t.sr = v ∧
        (t.pin = true ↔
          j ≤ (if v.getLsbD 7 then s.inst.cfg.t1 + s.inst.cfg.t2 else s.inst.cfg.t1)) ∧
        t.cyc = (s.cyc + j) % 2 ^ s.inst.cfg.w ∧
        (j < s.inst.cfg.total → t.startsBit = none) ∧
        (j = s.inst.cfg.total →
          t.fsm = 0b10#2 ∧ t.cyc = t.mark ∧ reached t.inst.cfg.w t.cyc t.mark = true)

/-- R103: the waveform of a whole command in the nominal environment. Taken at a step with sample
`c`, its `i`-th bit `byte[7 - i]` is high in the cycles whose count is
`c + i * TOTAL + 1 .. c + i * TOTAL + TOTAL - TAIL(bit)` and low in the rest up to
`c + i * TOTAL + TOTAL`. -/
def Obligations.CommandWaveform : Prop :=
  ∀ s : State, s.takes = true →
    NoReset s (bitCount s.pn * s.inst.cfg.total) →
    CountsByOne s (bitCount s.pn * s.inst.cfg.total) →
    ∀ i j, i < bitCount s.pn → 1 ≤ j → j ≤ s.inst.cfg.total →
      ∃ t, cycles (i * s.inst.cfg.total + j) s = .next t ∧
        t.cyc = (s.cyc + (i * s.inst.cfg.total + j)) % 2 ^ s.inst.cfg.w ∧
        (t.pin = true ↔
          j ≤ s.inst.cfg.total - s.inst.cfg.tail (s.pb.getLsbD (7 - i)))

/-- R88: a receiver that samples the pin `d` cycles after each rising edge, `T1 ≤ d < T1 + T2`,
reads the command's bits back, in order. -/
def Obligations.SampledWaveformDecodes : Prop :=
  ∀ (s : State) (d : Nat), s.takes = true →
    NoReset s (bitCount s.pn * s.inst.cfg.total) →
    CountsByOne s (bitCount s.pn * s.inst.cfg.total) →
    s.inst.cfg.t1 ≤ d → d < s.inst.cfg.t1 + s.inst.cfg.t2 →
    (List.range (bitCount s.pn)).map (fun i => pinAfter (i * s.inst.cfg.total + 1 + d) s) =
      (List.range (bitCount s.pn)).map (fun i => some (sentBit s.pb i))

/-- R105, R185 items 2 and 5: a command of `k` bits after which nothing is presented occupies
`k * TOTAL` cycles, in all of which `busy` is 1, and leaves the block idle with the pin low and
`sr = (byte << k) mod 2^8`. -/
def Obligations.CommandEndsIdle : Prop :=
  ∀ s : State, s.takes = true →
    NoReset s (bitCount s.pn * s.inst.cfg.total + 1) →
    NoCommand s (bitCount s.pn * s.inst.cfg.total + 1) →
    CountsByOne s (bitCount s.pn * s.inst.cfg.total) →
    (∀ j, 1 ≤ j → j ≤ bitCount s.pn * s.inst.cfg.total →
      ∃ t, cycles j s = .next t ∧ t.busy = true) ∧
    ∃ t, cycles (bitCount s.pn * s.inst.cfg.total + 1) s = .next t ∧
      t.fsm = 0b00#2 ∧ t.pin = false ∧ t.rem = 0 ∧ t.pv = false ∧ t.busy = false ∧
      t.sr = BitVec.ofNat 8 (s.pb.toNat * 2 ^ bitCount s.pn) ∧
      t.mark = (s.cyc + bitCount s.pn * s.inst.cfg.total) % 2 ^ s.inst.cfg.w

/-- R136: zero gap between commands. From cycle `m + 1` of a command taken in cycle `m`, `cmd_ready`
is 1 until the next command is presented. One first presented in a cycle of the window
`m + 1 .. m + k * TOTAL - 1` is taken in cycle `m + k * TOTAL`, and its first rising edge follows the
last rising edge of the command before it by exactly `TOTAL` cycles: that edge is between the cycles
`m + (k - 1) * TOTAL` and `m + (k - 1) * TOTAL + 1` (where `k = 1` the pin is asked to be low at the
take, as R48 says it is), there is none after it up to cycle `m + k * TOTAL`, and the new one is
between the cycles `m + k * TOTAL` and `m + k * TOTAL + 1`. The window is never empty. -/
def Obligations.NoGapBetweenCommands : Prop :=
  ∀ (s : State) (n : Nat), s.takes = true →
    NoReset s (bitCount s.pn * s.inst.cfg.total + 1) →
    CountsByOne s (bitCount s.pn * s.inst.cfg.total) →
    1 ≤ n → n ≤ bitCount s.pn * s.inst.cfg.total - 1 →
    (s.inputAt n).cmdValid = true → (∀ i, 1 ≤ i → i < n → (s.inputAt i).cmdValid = false) →
    3 ≤ bitCount s.pn * s.inst.cfg.total ∧
    (∀ j, 1 ≤ j → j ≤ n → ∃ a, cycles j s = .next a ∧ a.cmdReady = true) ∧
    (∃ q, cycles (bitCount s.pn * s.inst.cfg.total) s = .next q ∧
      q.fsm = 0b10#2 ∧ q.rem = 0 ∧ q.pv = true ∧ q.takes = true ∧ q.pin = false ∧
      q.pn = (s.inputAt n).cmdWord.extractLsb' 8 3 ∧
      q.pb = (s.inputAt n).cmdWord.extractLsb' 0 8) ∧
    (∃ t, cycles (bitCount s.pn * s.inst.cfg.total + 1) s = .next t ∧
      t.fsm = 0b01#2 ∧ t.pin = true ∧ t.pv = false ∧
      t.rem = (s.inputAt n).cmdWord.extractLsb' 8 3 ∧
      t.sr = (s.inputAt n).cmdWord.extractLsb' 0 8) ∧
    (2 ≤ bitCount s.pn ∨ s.pin = false →
      pinAfter ((bitCount s.pn - 1) * s.inst.cfg.total) s = some false) ∧
    pinAfter ((bitCount s.pn - 1) * s.inst.cfg.total + 1) s = some true ∧
    (∀ j, 2 ≤ j → j ≤ s.inst.cfg.total →
      pinAfter ((bitCount s.pn - 1) * s.inst.cfg.total + j) s = some true →
      pinAfter ((bitCount s.pn - 1) * s.inst.cfg.total + j - 1) s = some true)

/-- R137: start from idle. A command accepted in cycle `n` with `fsm = IDLE`, or in the very cycle
in which the sequencer goes to `IDLE`, is pending and taken in cycle `n + 1` with that cycle's
sample as its start, and the pin is high from cycle `n + 2`. -/
def Obligations.StartFromIdle : Prop :=
  ∀ s : State, NoReset s 2 → s.input.cmdValid = true → s.pv = false →
    (s.fsm = 0b00#2 ∨
      (s.fsm = 0b10#2 ∧ reached s.inst.cfg.w s.cyc s.mark = true ∧ s.rem = 0)) →
    ∃ a b, cycles 1 s = .next a ∧ cycles 2 s = .next b ∧
      a.fsm = 0b00#2 ∧ a.pv = true ∧ a.takes = true ∧
      (s.fsm = 0b10#2 → a.pin = false) ∧ (s.fsm = 0b00#2 → a.pin = s.pin) ∧
      b.fsm = 0b01#2 ∧ b.pin = true ∧ b.pv = false ∧
      b.rem = s.input.cmdWord.extractLsb' 8 3 ∧ b.sr = s.input.cmdWord.extractLsb' 0 8 ∧
      b.mark = (a.cyc + s.inst.cfg.total) % 2 ^ s.inst.cfg.w

/-- R121: a block that is idle with nothing pending, and is given no command and no reset, keeps
every register for as long as that lasts, whatever the counter does. -/
def Obligations.IdleForEver : Prop :=
  ∀ (s : State) (k : Nat), s.fsm = 0b00#2 → s.pv = false → NoReset s k → NoCommand s k →
    ∃ t, cycles k s = .next t ∧ t.registers = s.registers ∧ t.busy = false

/-- R153: the hang. While the threshold is not reached and there is no reset, the block stays in
HIGH, or in LOW, for ever: `busy` stays 1, the pin holds, the bit's registers hold, and a command in
the pending register stays there, so that no further one is accepted. -/
def Obligations.StoppedCounterHangs : Prop :=
  ∀ (s : State) (k : Nat), NoReset s k →
    (s.fsm = 0b01#2 ∧ (∀ j, j < k → reached s.inst.cfg.w (s.sampleAt j) s.dropPoint = false) ∨
     s.fsm = 0b10#2 ∧ (∀ j, j < k → reached s.inst.cfg.w (s.sampleAt j) s.mark = false)) →
    ∃ t, cycles k s = .next t ∧ t.fsm = s.fsm ∧ t.pin = s.pin ∧ t.busy = true ∧
      t.sr = s.sr ∧ t.rem = s.rem ∧ t.mark = s.mark ∧
      (s.pv = true → t.pv = true ∧ t.pn = s.pn ∧ t.pb = s.pb ∧ t.cmdReady = false)

/-- R133, R177: in the weaker environment, with a counter that may pause but keeps moving, every part
of a bit ends. HIGH ends, with the pin low, one step after its drop point is reached; LOW comes to
its mark. A threshold that is reached already (LOW entered with its mark passed) ends its part at
once, and one that is not, at whatever distance ahead, at the latest when the counter has risen by
that distance. -/
def Obligations.EveryBitIsStillSent : Prop :=
  (∀ (s : State) (k : Nat), s.fsm = 0b01#2 → NoReset s (k + 1) → CountsWeakly s k →
    (reached s.inst.cfg.w s.cyc s.dropPoint = true ∨
      subWrap s.inst.cfg.w s.dropPoint s.cyc ≤ s.risen k) →
    ∃ j t, j ≤ k ∧ cycles (j + 1) s = .next t ∧
      t.fsm = 0b10#2 ∧ t.pin = false ∧ t.sr = s.sr ∧ t.rem = s.rem ∧ t.mark = s.mark) ∧
  (∀ (s : State) (k : Nat), s.fsm = 0b10#2 → NoReset s k → CountsWeakly s k →
    (reached s.inst.cfg.w s.cyc s.mark = true ∨
      subWrap s.inst.cfg.w s.mark s.cyc ≤ s.risen k) →
    ∃ j t, j ≤ k ∧ cycles j s = .next t ∧
      t.fsm = 0b10#2 ∧ t.pin = s.pin ∧ t.sr = s.sr ∧ t.rem = s.rem ∧ t.mark = s.mark ∧
      reached t.inst.cfg.w t.cyc t.mark = true)

/-- R133, R177: in the weaker environment a bit that starts is sent to its end once the counter has
risen far enough: the pin is high for at least one cycle, then low for at least one, and then the
mark is reached with the bit's byte still in `sr`. The count asked for covers a counter that passes
the mark in HIGH and must come round (R133). -/
def Obligations.StartedBitIsSentWhole : Prop :=
  ∀ (s : State) (v : Byte) (k : Nat), s.startsBit = some v → NoReset s k → CountsWeakly s k →
    s.inst.cfg.total + 2 * 2 ^ s.inst.cfg.w ≤ s.risen k →
    ∃ i j, 1 ≤ i ∧ i < j ∧ j ≤ k ∧
      (∀ m, 1 ≤ m → m ≤ i → pinAfter m s = some true) ∧
      (∀ m, i < m → m ≤ j → pinAfter m s = some false) ∧
      ∃ t, cycles j s = .next t ∧ t.sr = v ∧ t.fsm = 0b10#2 ∧
        reached t.inst.cfg.w t.cyc t.mark = true

/-- R177: in the weaker environment the falling edge of a bit is late by no more than the last
single-step increase minus 1. `s` starts the bit, the pin has been high in all the cycles from 1 to
`m + 1` (so no edge among them reset the block), and the sample of cycle `m + 1` is one that has
reached the drop point: the pin falls at the end of that cycle, and the sample is past the drop point
by at most the increase into that cycle minus 1. -/
def Obligations.FallingEdgeLateness : Prop :=
  ∀ (s t : State) (v : Byte) (m : Nat), s.startsBit = some v → CountsWeakly s (m + 1) →
    cycles (m + 1) s = .next t →
    (∀ i, 1 ≤ i → i ≤ m + 1 → pinAfter i s = some true) →
    reached t.inst.cfg.w t.cyc t.dropPoint = true →
    1 ≤ s.riseAt m ∧ subWrap t.inst.cfg.w t.cyc t.dropPoint ≤ s.riseAt m - 1 ∧
    (t.input.rst = false → ∃ u, step t = .next u ∧ u.pin = false)

/-- R177: a block that waits in LOW for its mark ends the bit late by no more than the last
single-step increase minus 1. HIGH does not test the mark (R123), so this does not bound the
rising edge of a bit whose mark was passed in HIGH: log entry 20. -/
def Obligations.RisingEdgeLatenessInLow : Prop :=
  ∀ s t : State, s.fsm = 0b10#2 → s.input.rst = false →
    reached s.inst.cfg.w s.cyc s.mark = false → s.riseAt 0 ≤ 2 ^ (s.inst.cfg.w - 1) - 1 →
    step s = .next t → reached t.inst.cfg.w t.cyc t.mark = true →
    t.fsm = 0b10#2 ∧ t.mark = s.mark ∧
    1 ≤ s.riseAt 0 ∧ subWrap t.inst.cfg.w t.cyc t.mark ≤ s.riseAt 0 - 1

/-! ### Ordering -/

/-- R64, R69: first in, first out with nothing lost. Over any run without a reset, the command
pending at first followed by the commands accepted is the commands taken followed by the one
pending at last. -/
def Obligations.CommandsAreTakenInOrder : Prop :=
  ∀ (s t : State) (k : Nat), NoReset s k → cycles k s = .next t →
    s.pending ++ logOf State.acceptedNow k s = logOf State.takenNow k s ++ t.pending

/-- R70: when `busy = 0` every command accepted before has been taken and sent to the end of its
last bit (the sequencer is idle), and the pin is low. -/
def Obligations.IdleMeansEverythingIsSent : Prop :=
  ∀ (s t : State) (k : Nat), Inv s → NoReset s k → cycles k s = .next t → t.busy = false →
    s.pending ++ logOf State.acceptedNow k s = logOf State.takenNow k s ∧
    t.fsm = 0b00#2 ∧ t.rem = 0 ∧ t.pin = false

/-! ### What the block does not see -/

/-- R66, R38: the command port is not seen where nothing is accepted. Two blocks alike but for what
is presented, neither accepting, make the same step. -/
def Obligations.UnacceptedPortIsUnseen : Prop :=
  ∀ s t s' : State, s.registers = s'.registers → s.inst = s'.inst →
    s.input.rst = s'.input.rst → s.cyc = s'.cyc → s.accepts = false → s'.accepts = false →
    step s = .next t → ∃ t', step s' = .next t' ∧ t'.registers = t.registers

/-- R121, R184: an idle block with nothing pending reads no counter. Two such blocks alike but for
`cyc` make the same step. -/
def Obligations.IdleBlockReadsNoCounter : Prop :=
  ∀ s t s' : State, s.registers = s'.registers → s.inst = s'.inst →
    s.fsm = 0b00#2 → s.pv = false →
    s.input.rst = s'.input.rst → s.input.cmdValid = s'.input.cmdValid →
    s.input.cmdWord = s'.input.cmdWord →
    step s = .next t → ∃ t', step s' = .next t' ∧ t'.registers = t.registers

/-- R36: `pn` and `pb` are read only when `pv = 1`. Two blocks alike but for them, with `pv = 0`,
make the same step in every other register, and in these two as well where a command is
accepted. -/
def Obligations.EmptyPendingRegisterIsUnread : Prop :=
  ∀ s t : State, ∀ (n : BitIndex) (byte : Byte), s.pv = false → step s = .next t →
    ∃ t', step { s with pn := n, pb := byte } = .next t' ∧
      t'.fsm = t.fsm ∧ t'.pin = t.pin ∧ t'.sr = t.sr ∧ t'.rem = t.rem ∧ t'.mark = t.mark ∧
      t'.pv = t.pv ∧ (t.pv = true → t'.pn = t.pn ∧ t'.pb = t.pb)

end
end

