-- ==== Sys2Proof/Laws/State.lean ====
section
/-! SUPPORT. What each record update does to each field: one lemma a field, true by rfl. Below them,
what the inputs of the cycles to come are after an update. -/

namespace Sys2Proof.Machine

/-! ### startBit -/

@[simp] theorem startBit_inst (v : Byte) (r : BitIndex) (s : State) : (startBit v r s).inst = s.inst := rfl
@[simp] theorem startBit_fsm (v : Byte) (r : BitIndex) (s : State) : (startBit v r s).fsm = Fsm.high := rfl
@[simp] theorem startBit_pin (v : Byte) (r : BitIndex) (s : State) : (startBit v r s).pin = true := rfl
@[simp] theorem startBit_sr (v : Byte) (r : BitIndex) (s : State) : (startBit v r s).sr = v := rfl
@[simp] theorem startBit_rem (v : Byte) (r : BitIndex) (s : State) : (startBit v r s).rem = r := rfl
@[simp] theorem startBit_mark (v : Byte) (r : BitIndex) (s : State) : (startBit v r s).mark = addWrap s.inst.cfg.w s.cyc s.inst.cfg.total := rfl
@[simp] theorem startBit_pv (v : Byte) (r : BitIndex) (s : State) : (startBit v r s).pv = s.pv := rfl
@[simp] theorem startBit_pn (v : Byte) (r : BitIndex) (s : State) : (startBit v r s).pn = s.pn := rfl
@[simp] theorem startBit_pb (v : Byte) (r : BitIndex) (s : State) : (startBit v r s).pb = s.pb := rfl
@[simp] theorem startBit_cycle (v : Byte) (r : BitIndex) (s : State) : (startBit v r s).cycle = s.cycle := rfl
@[simp] theorem startBit_script (v : Byte) (r : BitIndex) (s : State) : (startBit v r s).script = s.script := rfl

/-! ### takePending -/

@[simp] theorem takePending_inst (s : State) : (takePending s).inst = s.inst := rfl
@[simp] theorem takePending_fsm (s : State) : (takePending s).fsm = Fsm.high := rfl
@[simp] theorem takePending_pin (s : State) : (takePending s).pin = true := rfl
@[simp] theorem takePending_sr (s : State) : (takePending s).sr = s.pb := rfl
@[simp] theorem takePending_rem (s : State) : (takePending s).rem = s.pn := rfl
@[simp] theorem takePending_mark (s : State) : (takePending s).mark = addWrap s.inst.cfg.w s.cyc s.inst.cfg.total := rfl
@[simp] theorem takePending_pv (s : State) : (takePending s).pv = false := rfl
@[simp] theorem takePending_pn (s : State) : (takePending s).pn = s.pn := rfl
@[simp] theorem takePending_pb (s : State) : (takePending s).pb = s.pb := rfl
@[simp] theorem takePending_cycle (s : State) : (takePending s).cycle = s.cycle := rfl
@[simp] theorem takePending_script (s : State) : (takePending s).script = s.script := rfl

/-! ### dropPin -/

@[simp] theorem dropPin_inst (s : State) : (dropPin s).inst = s.inst := rfl
@[simp] theorem dropPin_fsm (s : State) : (dropPin s).fsm = Fsm.low := rfl
@[simp] theorem dropPin_pin (s : State) : (dropPin s).pin = false := rfl
@[simp] theorem dropPin_sr (s : State) : (dropPin s).sr = s.sr := rfl
@[simp] theorem dropPin_rem (s : State) : (dropPin s).rem = s.rem := rfl
@[simp] theorem dropPin_mark (s : State) : (dropPin s).mark = s.mark := rfl
@[simp] theorem dropPin_pv (s : State) : (dropPin s).pv = s.pv := rfl
@[simp] theorem dropPin_pn (s : State) : (dropPin s).pn = s.pn := rfl
@[simp] theorem dropPin_pb (s : State) : (dropPin s).pb = s.pb := rfl
@[simp] theorem dropPin_cycle (s : State) : (dropPin s).cycle = s.cycle := rfl
@[simp] theorem dropPin_script (s : State) : (dropPin s).script = s.script := rfl

/-! ### goIdle -/

@[simp] theorem goIdle_inst (s : State) : (goIdle s).inst = s.inst := rfl
@[simp] theorem goIdle_fsm (s : State) : (goIdle s).fsm = Fsm.idle := rfl
@[simp] theorem goIdle_pin (s : State) : (goIdle s).pin = false := rfl
@[simp] theorem goIdle_sr (s : State) : (goIdle s).sr = shiftLeftOne s.sr := rfl
@[simp] theorem goIdle_rem (s : State) : (goIdle s).rem = s.rem := rfl
@[simp] theorem goIdle_mark (s : State) : (goIdle s).mark = s.mark := rfl
@[simp] theorem goIdle_pv (s : State) : (goIdle s).pv = s.pv := rfl
@[simp] theorem goIdle_pn (s : State) : (goIdle s).pn = s.pn := rfl
@[simp] theorem goIdle_pb (s : State) : (goIdle s).pb = s.pb := rfl
@[simp] theorem goIdle_cycle (s : State) : (goIdle s).cycle = s.cycle := rfl
@[simp] theorem goIdle_script (s : State) : (goIdle s).script = s.script := rfl

/-! ### loadPending -/

@[simp] theorem loadPending_inst (n : BitIndex) (byte : Byte) (s : State) : (loadPending n byte s).inst = s.inst := rfl
@[simp] theorem loadPending_fsm (n : BitIndex) (byte : Byte) (s : State) : (loadPending n byte s).fsm = s.fsm := rfl
@[simp] theorem loadPending_pin (n : BitIndex) (byte : Byte) (s : State) : (loadPending n byte s).pin = s.pin := rfl
@[simp] theorem loadPending_sr (n : BitIndex) (byte : Byte) (s : State) : (loadPending n byte s).sr = s.sr := rfl
@[simp] theorem loadPending_rem (n : BitIndex) (byte : Byte) (s : State) : (loadPending n byte s).rem = s.rem := rfl
@[simp] theorem loadPending_mark (n : BitIndex) (byte : Byte) (s : State) : (loadPending n byte s).mark = s.mark := rfl
@[simp] theorem loadPending_pv (n : BitIndex) (byte : Byte) (s : State) : (loadPending n byte s).pv = true := rfl
@[simp] theorem loadPending_pn (n : BitIndex) (byte : Byte) (s : State) : (loadPending n byte s).pn = n := rfl
@[simp] theorem loadPending_pb (n : BitIndex) (byte : Byte) (s : State) : (loadPending n byte s).pb = byte := rfl
@[simp] theorem loadPending_cycle (n : BitIndex) (byte : Byte) (s : State) : (loadPending n byte s).cycle = s.cycle := rfl
@[simp] theorem loadPending_script (n : BitIndex) (byte : Byte) (s : State) : (loadPending n byte s).script = s.script := rfl

/-! ### resetRegisters -/

@[simp] theorem resetRegisters_inst (s : State) : (resetRegisters s).inst = s.inst := rfl
@[simp] theorem resetRegisters_fsm (s : State) : (resetRegisters s).fsm = Fsm.idle := rfl
@[simp] theorem resetRegisters_pin (s : State) : (resetRegisters s).pin = false := rfl
@[simp] theorem resetRegisters_sr (s : State) : (resetRegisters s).sr = 0#8 := rfl
@[simp] theorem resetRegisters_rem (s : State) : (resetRegisters s).rem = 0#3 := rfl
@[simp] theorem resetRegisters_mark (s : State) : (resetRegisters s).mark = 0 := rfl
@[simp] theorem resetRegisters_pv (s : State) : (resetRegisters s).pv = false := rfl
@[simp] theorem resetRegisters_pn (s : State) : (resetRegisters s).pn = 0#3 := rfl
@[simp] theorem resetRegisters_pb (s : State) : (resetRegisters s).pb = 0#8 := rfl
@[simp] theorem resetRegisters_cycle (s : State) : (resetRegisters s).cycle = s.cycle := rfl
@[simp] theorem resetRegisters_script (s : State) : (resetRegisters s).script = s.script := rfl

/-! ### nextCycle -/

@[simp] theorem nextCycle_inst (s : State) : (nextCycle s).inst = s.inst := rfl
@[simp] theorem nextCycle_fsm (s : State) : (nextCycle s).fsm = s.fsm := rfl
@[simp] theorem nextCycle_pin (s : State) : (nextCycle s).pin = s.pin := rfl
@[simp] theorem nextCycle_sr (s : State) : (nextCycle s).sr = s.sr := rfl
@[simp] theorem nextCycle_rem (s : State) : (nextCycle s).rem = s.rem := rfl
@[simp] theorem nextCycle_mark (s : State) : (nextCycle s).mark = s.mark := rfl
@[simp] theorem nextCycle_pv (s : State) : (nextCycle s).pv = s.pv := rfl
@[simp] theorem nextCycle_pn (s : State) : (nextCycle s).pn = s.pn := rfl
@[simp] theorem nextCycle_pb (s : State) : (nextCycle s).pb = s.pb := rfl
@[simp] theorem nextCycle_cycle (s : State) : (nextCycle s).cycle = s.cycle + 1 := rfl
@[simp] theorem nextCycle_script (s : State) : (nextCycle s).script = s.script.tail := rfl

/-! ### joinPending -/

@[simp] theorem joinPending_inst (a b : State) : (joinPending a b).inst = a.inst := rfl
@[simp] theorem joinPending_fsm (a b : State) : (joinPending a b).fsm = a.fsm := rfl
@[simp] theorem joinPending_pin (a b : State) : (joinPending a b).pin = a.pin := rfl
@[simp] theorem joinPending_sr (a b : State) : (joinPending a b).sr = a.sr := rfl
@[simp] theorem joinPending_rem (a b : State) : (joinPending a b).rem = a.rem := rfl
@[simp] theorem joinPending_mark (a b : State) : (joinPending a b).mark = a.mark := rfl
@[simp] theorem joinPending_pv (a b : State) : (joinPending a b).pv = b.pv := rfl
@[simp] theorem joinPending_pn (a b : State) : (joinPending a b).pn = b.pn := rfl
@[simp] theorem joinPending_pb (a b : State) : (joinPending a b).pb = b.pb := rfl
@[simp] theorem joinPending_cycle (a b : State) : (joinPending a b).cycle = a.cycle := rfl
@[simp] theorem joinPending_script (a b : State) : (joinPending a b).script = a.script := rfl

/-! ### The state after reset -/

@[simp] theorem resetOf_inst (inst : Instance) (script : List Inputs) :
    (State.resetOf inst script).inst = inst := rfl
@[simp] theorem resetOf_fsm (inst : Instance) (script : List Inputs) :
    (State.resetOf inst script).fsm = Fsm.idle := rfl
@[simp] theorem resetOf_pin (inst : Instance) (script : List Inputs) :
    (State.resetOf inst script).pin = false := rfl
@[simp] theorem resetOf_sr (inst : Instance) (script : List Inputs) :
    (State.resetOf inst script).sr = 0#8 := rfl
@[simp] theorem resetOf_rem (inst : Instance) (script : List Inputs) :
    (State.resetOf inst script).rem = 0#3 := rfl
@[simp] theorem resetOf_mark (inst : Instance) (script : List Inputs) :
    (State.resetOf inst script).mark = 0 := rfl
@[simp] theorem resetOf_pv (inst : Instance) (script : List Inputs) :
    (State.resetOf inst script).pv = false := rfl
@[simp] theorem resetOf_pn (inst : Instance) (script : List Inputs) :
    (State.resetOf inst script).pn = 0#3 := rfl
@[simp] theorem resetOf_pb (inst : Instance) (script : List Inputs) :
    (State.resetOf inst script).pb = 0#8 := rfl
@[simp] theorem resetOf_cycle (inst : Instance) (script : List Inputs) :
    (State.resetOf inst script).cycle = 0 := rfl
@[simp] theorem resetOf_script (inst : Instance) (script : List Inputs) :
    (State.resetOf inst script).script = script := rfl

/-! ### The values of the sequencer state are distinct -/

@[simp] theorem Fsm_idle_ne_high : Fsm.idle ≠ Fsm.high := by decide
@[simp] theorem Fsm_idle_ne_low : Fsm.idle ≠ Fsm.low := by decide
@[simp] theorem Fsm_idle_ne_reserved : Fsm.idle ≠ Fsm.reserved := by decide
@[simp] theorem Fsm_high_ne_idle : Fsm.high ≠ Fsm.idle := by decide
@[simp] theorem Fsm_high_ne_low : Fsm.high ≠ Fsm.low := by decide
@[simp] theorem Fsm_high_ne_reserved : Fsm.high ≠ Fsm.reserved := by decide
@[simp] theorem Fsm_low_ne_idle : Fsm.low ≠ Fsm.idle := by decide
@[simp] theorem Fsm_low_ne_high : Fsm.low ≠ Fsm.high := by decide
@[simp] theorem Fsm_low_ne_reserved : Fsm.low ≠ Fsm.reserved := by decide
@[simp] theorem Fsm_reserved_ne_idle : Fsm.reserved ≠ Fsm.idle := by decide
@[simp] theorem Fsm_reserved_ne_high : Fsm.reserved ≠ Fsm.high := by decide
@[simp] theorem Fsm_reserved_ne_low : Fsm.reserved ≠ Fsm.low := by decide

/-! ### The inputs of the cycles to come -/

@[simp] theorem startBit_inputAt (v : Byte) (r : BitIndex) (s : State) (j : Nat) :
    (startBit v r s).inputAt j = s.inputAt j := rfl
@[simp] theorem takePending_inputAt (s : State) (j : Nat) :
    (takePending s).inputAt j = s.inputAt j := rfl
@[simp] theorem dropPin_inputAt (s : State) (j : Nat) :
    (dropPin s).inputAt j = s.inputAt j := rfl
@[simp] theorem goIdle_inputAt (s : State) (j : Nat) :
    (goIdle s).inputAt j = s.inputAt j := rfl
@[simp] theorem loadPending_inputAt (n : BitIndex) (byte : Byte) (s : State) (j : Nat) :
    (loadPending n byte s).inputAt j = s.inputAt j := rfl
@[simp] theorem resetRegisters_inputAt (s : State) (j : Nat) :
    (resetRegisters s).inputAt j = s.inputAt j := rfl
@[simp] theorem joinPending_inputAt (a b : State) (j : Nat) :
    (joinPending a b).inputAt j = a.inputAt j := rfl

/-- One cycle later, the `j`-th cycle from now is what the `j + 1`-th was. -/
@[simp] theorem nextCycle_inputAt (s : State) (j : Nat) :
    (nextCycle s).inputAt j = s.inputAt (j + 1) := by
  have hc : s.cycle + 1 + j = s.cycle + (j + 1) := by omega
  simp only [State.inputAt, nextCycle, hc]
  cases s.script <;> simp [List.getD]

@[simp] theorem nextCycle_sampleAt (s : State) (j : Nat) :
    (nextCycle s).sampleAt j = s.sampleAt (j + 1) := by
  simp [State.sampleAt]

@[simp] theorem nextCycle_riseAt (s : State) (j : Nat) :
    (nextCycle s).riseAt j = s.riseAt (j + 1) := by
  simp [State.riseAt]

@[simp] theorem nextCycle_cyc (s : State) : (nextCycle s).cyc = s.sampleAt 1 := by
  simp [State.cyc]

@[simp] theorem nextCycle_input (s : State) : (nextCycle s).input = s.inputAt 1 := by
  simp [State.input]

@[simp] theorem startBit_sampleAt (v : Byte) (r : BitIndex) (s : State) (j : Nat) :
    (startBit v r s).sampleAt j = s.sampleAt j := rfl
@[simp] theorem takePending_sampleAt (s : State) (j : Nat) :
    (takePending s).sampleAt j = s.sampleAt j := rfl
@[simp] theorem dropPin_sampleAt (s : State) (j : Nat) :
    (dropPin s).sampleAt j = s.sampleAt j := rfl
@[simp] theorem goIdle_sampleAt (s : State) (j : Nat) :
    (goIdle s).sampleAt j = s.sampleAt j := rfl
@[simp] theorem loadPending_sampleAt (n : BitIndex) (byte : Byte) (s : State) (j : Nat) :
    (loadPending n byte s).sampleAt j = s.sampleAt j := rfl
@[simp] theorem resetRegisters_sampleAt (s : State) (j : Nat) :
    (resetRegisters s).sampleAt j = s.sampleAt j := rfl
@[simp] theorem joinPending_sampleAt (a b : State) (j : Nat) :
    (joinPending a b).sampleAt j = a.sampleAt j := rfl

end Sys2Proof.Machine
end

