-- ==== Sys2Proof/Laws/Timing.lean ====
section
/-! SUPPORT. What `CFG_OK` gives, and the arithmetic of the counter. -/

namespace Sys2Proof.Machine

/-! ### What a valid configuration gives (spec/00_scope.md R10, R11) -/

/-- `CFG_OK` as its clauses. -/
theorem Config.ok_iff (c : Config) :
    c.ok = true ↔ 3 ≤ c.w ∧ 1 ≤ c.p1 ∧ 1 ≤ c.p2 ∧ 1 ≤ c.p3 ∧ 0 ≤ c.adj ∧ 1 ≤ c.t3 ∧ c.pad = 0 ∧
      c.total ≤ 2 ^ (c.w - 1) - 1 := by
  simp only [Config.ok, Bool.and_eq_true, decide_eq_true_iff, and_assoc]

theorem Instance.three_le_w (i : Instance) : 3 ≤ i.cfg.w := by
  obtain ⟨h, -⟩ := (Config.ok_iff _).1 i.valid
  exact h

theorem Instance.phases_pos (i : Instance) : 1 ≤ i.cfg.t1 ∧ 1 ≤ i.cfg.t2 ∧ 1 ≤ i.cfg.t3 := by
  have h := (Config.ok_iff _).1 i.valid
  simp only [Config.t1, Config.t2, Config.t3] at *
  omega

theorem Instance.total_le (i : Instance) : i.cfg.total ≤ 2 ^ (i.cfg.w - 1) - 1 := by
  obtain ⟨-, -, -, -, -, -, -, h⟩ := (Config.ok_iff _).1 i.valid
  exact h

/-- The whole range is twice the half range. -/
theorem two_pow_eq_double (w : Nat) (h : 1 ≤ w) : 2 ^ w = 2 * 2 ^ (w - 1) := by
  obtain ⟨v, rfl⟩ : ∃ v, w = v + 1 := ⟨w - 1, by omega⟩
  simp [Nat.pow_succ, Nat.mul_comm]

/-- A bit's high part and its low tail make up `TOTAL`. -/
theorem Config.highFor_eq (c : Config) (bit : Bool) :
    Config.highFor c bit = if bit then c.t1 + c.t2 else c.t1 := by
  cases bit
  · simp [Config.highFor, Config.total, Config.tail]
    omega
  · simp [Config.highFor, Config.total, Config.tail]

/-! ### Wrap-around arithmetic (spec/41_sequencer.md R131) -/

theorem addWrap_lt (w : Nat) (a b : Nat) : addWrap w a b < 2 ^ w :=
  Nat.mod_lt _ (Nat.two_pow_pos w)

/-- `subWrap` is the integer difference modulo `2^w`. -/
theorem coe_subWrap (w : Nat) (a b : Nat) :
    ((subWrap w a b : Nat) : Int) = ((a : Int) - b) % ((2 ^ w : Nat) : Int) := by
  have hp : (0 : Int) < 2 ^ w := by positivity
  rw [show ((2 ^ w : Nat) : Int) = 2 ^ w by push_cast; rfl]
  exact Int.toNat_of_nonneg (Int.emod_nonneg _ (ne_of_gt hp))

theorem subWrap_lt (w : Nat) (a b : Nat) : subWrap w a b < 2 ^ w := by
  have hp : (0 : Int) < ((2 ^ w : Nat) : Int) := by exact_mod_cast Nat.two_pow_pos w
  have h := Int.emod_lt_of_pos ((a : Int) - b) hp
  rw [← coe_subWrap] at h
  exact_mod_cast h

theorem sampleAt_lt (s : State) (j : Nat) : s.sampleAt j < 2 ^ s.inst.cfg.w :=
  Nat.mod_lt _ (Nat.two_pow_pos _)

theorem addWrap_addWrap (w : Nat) (a b c : Nat) :
    addWrap w (addWrap w a b) c = addWrap w a (b + c) := by
  simp [addWrap, Nat.add_assoc]

/-- The difference of two counts depends on them modulo `2^w` only. -/
theorem subWrap_mod (w : Nat) (a b : Nat) : subWrap w (a % 2 ^ w) (b % 2 ^ w) = subWrap w a b := by
  have h : ((subWrap w (a % 2 ^ w) (b % 2 ^ w) : Nat) : Int) = (subWrap w a b : Nat) := by
    simp only [coe_subWrap, Int.natCast_mod]
    rw [← Int.sub_emod]
  exact_mod_cast h

/-- Two counts measured from one origin: the difference of their distances. -/
theorem subWrap_addWrap (w : Nat) (s a b : Nat) :
    subWrap w (addWrap w s a) (addWrap w s b) = subWrap w a b := by
  unfold addWrap
  rw [subWrap_mod]
  unfold subWrap
  congr 2
  push_cast
  omega

/-- Going `d` back from a point `e` past an origin lands `e - d` past it. -/
theorem subWrap_addWrap_back (w : Nat) (s e d : Nat) (h : d ≤ e) :
    subWrap w (addWrap w s e) d = addWrap w s (e - d) := by
  have hi : ((subWrap w (addWrap w s e) d : Nat) : Int) = (addWrap w s (e - d) : Nat) := by
    rw [coe_subWrap]
    simp only [addWrap, Int.natCast_mod, Int.emod_sub_emod]
    congr 1
    omega
  exact_mod_cast hi

/-- Adding a difference back. -/
theorem addWrap_subWrap (w : Nat) (a b : Nat) : addWrap w b (subWrap w a b) = a % 2 ^ w := by
  have hi : ((addWrap w b (subWrap w a b) : Nat) : Int) = ((a % 2 ^ w : Nat) : Int) := by
    rw [addWrap, Int.natCast_mod, Int.natCast_mod, Nat.cast_add, coe_subWrap, Int.add_emod_emod]
    congr 1
    omega
  exact_mod_cast hi

/-- A difference that fits in the range is itself. -/
theorem subWrap_of_le (w : Nat) (a b : Nat) (hle : b ≤ a) (hlt : a - b < 2 ^ w) :
    subWrap w a b = a - b := by
  have hi : ((subWrap w a b : Nat) : Int) = ((a - b : Nat) : Int) := by
    rw [coe_subWrap, Nat.cast_sub hle]
    generalize 2 ^ w = m at *
    exact Int.emod_eq_of_lt (by omega) (by omega)
  exact_mod_cast hi

/-- A difference that borrows wraps to the top of the range. -/
theorem subWrap_of_lt (w : Nat) (a b : Nat) (hlt : a < b) (hle : b - a ≤ 2 ^ w) :
    subWrap w a b = 2 ^ w - (b - a) := by
  have hi : ((subWrap w a b : Nat) : Int) = ((2 ^ w - (b - a) : Nat) : Int) := by
    rw [coe_subWrap]
    generalize 2 ^ w = m at *
    rw [← Int.add_emod_right, Int.emod_eq_of_lt (by omega) (by omega)]
    omega
  exact_mod_cast hi

/-! ### How far the counter rises (spec/70_reset_and_hazards.md R177) -/

/-- A sample is the one before it and the rise between them. -/
theorem sampleAt_succ (s : State) (j : Nat) :
    s.sampleAt (j + 1) = addWrap s.inst.cfg.w (s.sampleAt j) (s.riseAt j) := by
  rw [State.riseAt, addWrap_subWrap, Nat.mod_eq_of_lt (sampleAt_lt s (j + 1))]

/-- A later sample is the first one and all the counts risen since. -/
theorem sampleAt_eq_risen (s : State) (j : Nat) :
    s.sampleAt j = addWrap s.inst.cfg.w s.cyc (s.risen j) := by
  induction j with
  | zero => simp [addWrap, State.risen, State.cyc, Nat.mod_eq_of_lt (sampleAt_lt s 0)]
  | succ j ih => rw [sampleAt_succ, ih, addWrap_addWrap, State.risen]

end Sys2Proof.Machine
end

