-- ==== Sys2Proof/Laws/Ops.lean ====
section
/-! SUPPORT. What each shared operation and each part of a step can do, said once. -/

namespace Sys2Proof.Machine

/-! ### Presenting a command -/

theorem present_of_ready (n : BitIndex) (byte : Byte) (s : State) (h : s.cmdReady = true) :
    present n byte s = loadPending n byte s := by
  simp [present, h]

theorem present_of_not_ready (n : BitIndex) (byte : Byte) (s : State) (h : s.cmdReady = false) :
    present n byte s = s := by
  simp [present, h]

/-- Every word on the port is a presentation of its two fields. -/
theorem exec_decodeCmd (word : CmdWord) (s : State) :
    exec (decodeCmd word) s = .next (present (CmdWord.nField word) (CmdWord.byteField word) s) := by
  unfold decodeCmd
  split
  · next h => simp [exec, execWritebyte, h]
  · rfl

/-! ### The sequencer's cases -/

/-- What the sequencer part makes of a state: the six cases of spec/41_sequencer.md section 3. -/
theorem seqIdle_cases (s : State) :
    (s.pv = false ∧ exec .seqIdle s = .next s) ∨
    (s.pv = true ∧ exec .seqIdle s = .next (takePending s)) := by
  cases h : s.pv <;> simp [exec, execSeqIdle, h]

theorem seqHigh_cases (s : State) :
    (s.dropReached = false ∧ exec .seqHigh s = .next s) ∨
    (s.dropReached = true ∧ exec .seqHigh s = .next (dropPin s)) := by
  cases h : s.dropReached <;> simp [exec, execSeqHigh, h]

theorem seqLow_cases (s : State) :
    (s.markReached = false ∧ exec .seqLow s = .next s) ∨
    (s.markReached = true ∧ s.rem ≠ 0#3 ∧
      exec .seqLow s = .next (startBit (shiftLeftOne s.sr) (s.rem - 1#3) s)) ∨
    (s.markReached = true ∧ s.rem = 0#3 ∧ s.pv = true ∧ exec .seqLow s = .next (takePending s)) ∨
    (s.markReached = true ∧ s.rem = 0#3 ∧ s.pv = false ∧ exec .seqLow s = .next (goIdle s)) := by
  cases h : s.markReached
  · simp [exec, execSeqLow, h]
  · by_cases hr : s.rem = 0#3
    · cases hp : s.pv <;> simp [exec, execSeqLow, h, hr, hp]
    · simp [exec, execSeqLow, h, hr]

/-! ### Selecting -/

@[simp] theorem decodeSeq_idle : decodeSeq Fsm.idle = .ok .seqIdle := by decide
@[simp] theorem decodeSeq_high : decodeSeq Fsm.high = .ok .seqHigh := by decide
@[simp] theorem decodeSeq_low : decodeSeq Fsm.low = .ok .seqLow := by decide
@[simp] theorem decodeSeq_reserved :
    decodeSeq Fsm.reserved = .error .reservedSequencerState := by decide

/-- The four values of the sequencer state. -/
theorem fsm_cases (f : SeqCode) :
    f = Fsm.idle ∨ f = Fsm.high ∨ f = Fsm.low ∨ f = Fsm.reserved := by
  revert f
  decide

/-- The port part carries out exactly the accepted command. -/
theorem withPortPart_eq (s a : State) :
    withPortPart s a = .next
      (if s.accepts then
        joinPending a (loadPending (CmdWord.nField s.input.cmdWord)
          (CmdWord.byteField s.input.cmdWord) s)
      else a) := by
  unfold withPortPart State.portInstr State.accepts
  cases hv : s.input.cmdValid <;> cases hr : s.cmdReady <;>
    simp [exec_decodeCmd, present, hr]

end Sys2Proof.Machine
end

