-- ==== Sys2Proof/Laws/Step.lean ====
section
/-! SUPPORT. What one step can do, said once, and how runs of many cycles are taken apart. -/

namespace Sys2Proof.Machine

/-- The port part's writes beside the sequencer part's result `a`. -/
def afterPort (s a : State) : State :=
  if s.accepts then
    joinPending a (loadPending (CmdWord.nField s.input.cmdWord)
      (CmdWord.byteField s.input.cmdWord) s)
  else a

/-- A step at an edge with `rst = 1`. -/
theorem step_of_rst (s : State) (h : s.input.rst = true) :
    step s = .next (nextCycle (resetRegisters s)) := by
  simp [step, clockEdge, h]

/-- A step at an edge with `rst = 0`, given what the sequencer part answers. -/
theorem step_of_seq (s a : State) (i : Instr) (h : s.input.rst = false)
    (hd : decodeSeq s.fsm = .ok i) (he : exec i s = .next a) :
    step s = .next (nextCycle (afterPort s a)) := by
  simp [step, clockEdge, bothParts, h, hd, he, withPortPart_eq, afterPort]

/-- A step in the reserved state with `rst = 0`. -/
theorem step_of_reserved (s : State) (h : s.input.rst = false) (hf : s.fsm = Fsm.reserved) :
    step s = .refused .reservedSequencerState := by
  simp [step, clockEdge, bothParts, h, hf]

/-- Everything a step that answers a next state can have done: reset, or one of the six cases and
the two waits of spec/41_sequencer.md, with the port part beside it. -/
theorem step_cases (s t : State) (h : step s = .next t) :
    (s.input.rst = true ∧ t = nextCycle (resetRegisters s)) ∨
    (s.input.rst = false ∧ ∃ a, t = nextCycle (afterPort s a) ∧
      ((s.fsm = Fsm.idle ∧ s.pv = false ∧ a = s) ∨
       (s.fsm = Fsm.idle ∧ s.pv = true ∧ a = takePending s) ∨
       (s.fsm = Fsm.high ∧ s.dropReached = false ∧ a = s) ∨
       (s.fsm = Fsm.high ∧ s.dropReached = true ∧ a = dropPin s) ∨
       (s.fsm = Fsm.low ∧ s.markReached = false ∧ a = s) ∨
       (s.fsm = Fsm.low ∧ s.markReached = true ∧ s.rem ≠ 0#3 ∧
          a = startBit (shiftLeftOne s.sr) (s.rem - 1#3) s) ∨
       (s.fsm = Fsm.low ∧ s.markReached = true ∧ s.rem = 0#3 ∧ s.pv = true ∧ a = takePending s) ∨
       (s.fsm = Fsm.low ∧ s.markReached = true ∧ s.rem = 0#3 ∧ s.pv = false ∧ a = goIdle s))) := by
  cases hr : s.input.rst
  · refine .inr ⟨rfl, ?_⟩
    have key : ∀ i a, decodeSeq s.fsm = .ok i → exec i s = .next a →
        t = nextCycle (afterPort s a) := by
      intro i a hd he
      rw [step_of_seq s a i hr hd he] at h
      exact (Host.Outcome.next.inj h).symm
    rcases fsm_cases s.fsm with hf | hf | hf | hf
    · have hd : decodeSeq s.fsm = .ok .seqIdle := by rw [hf]; decide
      rcases seqIdle_cases s with ⟨hp, he⟩ | ⟨hp, he⟩
      · exact ⟨_, key _ _ hd he, by simp [hf, hp]⟩
      · exact ⟨_, key _ _ hd he, by simp [hf, hp]⟩
    · have hd : decodeSeq s.fsm = .ok .seqHigh := by rw [hf]; decide
      rcases seqHigh_cases s with ⟨hp, he⟩ | ⟨hp, he⟩
      · exact ⟨_, key _ _ hd he, by simp [hf, hp]⟩
      · exact ⟨_, key _ _ hd he, by simp [hf, hp]⟩
    · have hd : decodeSeq s.fsm = .ok .seqLow := by rw [hf]; decide
      rcases seqLow_cases s with ⟨hm, he⟩ | ⟨hm, hn, he⟩ | ⟨hm, hn, hp, he⟩ | ⟨hm, hn, hp, he⟩
      · exact ⟨_, key _ _ hd he, by simp [hf, hm]⟩
      · exact ⟨_, key _ _ hd he, by simp [hf, hm, hn]⟩
      · exact ⟨_, key _ _ hd he, by simp [hf, hm, hn, hp]⟩
      · exact ⟨_, key _ _ hd he, by simp [hf, hm, hn, hp]⟩
    · rw [step_of_reserved s hr hf] at h
      cases h
  · rw [step_of_rst s hr] at h
    exact .inl ⟨rfl, (Host.Outcome.next.inj h).symm⟩

/-! ### The port part, field by field -/

/-- With `rst = 0`, acceptance is a command presented to an empty pending register. -/
theorem accepts_iff (s : State) (h : s.input.rst = false) :
    s.accepts = true ↔ (s.input.cmdValid = true ∧ s.pv = false) := by
  simp [State.accepts, State.cmdReady, h]

theorem accepts_pv (s : State) (h : s.accepts = true) : s.pv = false := by
  simp [State.accepts, State.cmdReady] at h
  exact h.2.1

theorem takes_pv (s : State) (h : s.takes = true) : s.pv = true := by
  simp [State.takes] at h
  exact h.1

@[simp] theorem afterPort_inst (s a : State) : (afterPort s a).inst = a.inst := by
  unfold afterPort; split <;> rfl
@[simp] theorem afterPort_fsm (s a : State) : (afterPort s a).fsm = a.fsm := by
  unfold afterPort; split <;> rfl
@[simp] theorem afterPort_pin (s a : State) : (afterPort s a).pin = a.pin := by
  unfold afterPort; split <;> rfl
@[simp] theorem afterPort_sr (s a : State) : (afterPort s a).sr = a.sr := by
  unfold afterPort; split <;> rfl
@[simp] theorem afterPort_rem (s a : State) : (afterPort s a).rem = a.rem := by
  unfold afterPort; split <;> rfl
@[simp] theorem afterPort_mark (s a : State) : (afterPort s a).mark = a.mark := by
  unfold afterPort; split <;> rfl
@[simp] theorem afterPort_cycle (s a : State) : (afterPort s a).cycle = a.cycle := by
  unfold afterPort; split <;> rfl
@[simp] theorem afterPort_script (s a : State) : (afterPort s a).script = a.script := by
  unfold afterPort; split <;> rfl
@[simp] theorem afterPort_inputAt (s a : State) (j : Nat) :
    (afterPort s a).inputAt j = a.inputAt j := by
  unfold afterPort; split <;> rfl
@[simp] theorem afterPort_sampleAt (s a : State) (j : Nat) :
    (afterPort s a).sampleAt j = a.sampleAt j := by
  unfold afterPort; split <;> rfl
theorem afterPort_pv (s a : State) :
    (afterPort s a).pv = if s.accepts then true else a.pv := by
  unfold afterPort; split <;> rfl
theorem afterPort_pn (s a : State) :
    (afterPort s a).pn = if s.accepts then CmdWord.nField s.input.cmdWord else a.pn := by
  unfold afterPort; split <;> rfl
theorem afterPort_pb (s a : State) :
    (afterPort s a).pb = if s.accepts then CmdWord.byteField s.input.cmdWord else a.pb := by
  unfold afterPort; split <;> rfl

/-! ### Time passes by one cycle a step -/

theorem step_inputAt (s t : State) (h : step s = .next t) (j : Nat) :
    t.inputAt j = s.inputAt (j + 1) := by
  rcases step_cases s t h with ⟨-, rfl⟩ | ⟨-, a, rfl, hc⟩
  · simp
  · rcases hc with ⟨-, -, rfl⟩ | ⟨-, -, rfl⟩ | ⟨-, -, rfl⟩ | ⟨-, -, rfl⟩ | ⟨-, -, rfl⟩ |
      ⟨-, -, -, rfl⟩ | ⟨-, -, -, -, rfl⟩ | ⟨-, -, -, -, rfl⟩ <;> simp

/-- No step writes the instance. -/
theorem step_inst (s t : State) (h : step s = .next t) : t.inst = s.inst := by
  rcases step_cases s t h with ⟨-, rfl⟩ | ⟨-, a, rfl, hc⟩
  · simp
  · rcases hc with ⟨-, -, rfl⟩ | ⟨-, -, rfl⟩ | ⟨-, -, rfl⟩ | ⟨-, -, rfl⟩ | ⟨-, -, rfl⟩ |
      ⟨-, -, -, rfl⟩ | ⟨-, -, -, -, rfl⟩ | ⟨-, -, -, -, rfl⟩ <;> simp

theorem step_sampleAt (s t : State) (h : step s = .next t) (j : Nat) :
    t.sampleAt j = s.sampleAt (j + 1) := by
  simp [State.sampleAt, step_inputAt s t h, step_inst s t h]

theorem step_riseAt (s t : State) (h : step s = .next t) (j : Nat) :
    t.riseAt j = s.riseAt (j + 1) := by
  simp [State.riseAt, step_sampleAt s t h, step_inst s t h]

/-! ### Runs -/

@[simp] theorem cycles_zero (s : State) : cycles 0 s = .next s := rfl

theorem cycles_succ_of_step (k : Nat) (s t : State) (h : step s = .next t) :
    cycles (k + 1) s = cycles k t := by
  simp [cycles, h]

/-- A run of `m + k` cycles is a run of `m` and then a run of `k`. -/
theorem cycles_add (m k : Nat) (s t : State) (h : cycles m s = .next t) :
    cycles (m + k) s = cycles k t := by
  induction m generalizing s with
  | zero =>
      cases h
      simp
  | succ m ih =>
      cases hs : step s with
      | next u =>
          rw [cycles_succ_of_step m s u hs] at h
          rw [show m + 1 + k = (m + k) + 1 by omega, cycles_succ_of_step _ s u hs]
          exact ih u h
      | fault f => exact nomatch f
      | refused r => simp [cycles, hs] at h

/-- A run of `k + 1` cycles ends in the step after a run of `k`. -/
theorem cycles_succ_last (k : Nat) (s t : State) (h : cycles (k + 1) s = .next t) :
    ∃ u, cycles k s = .next u ∧ step u = .next t := by
  induction k generalizing s with
  | zero =>
      cases hs : step s with
      | next u =>
          rw [cycles_succ_of_step 0 s u hs] at h
          cases h
          exact ⟨s, rfl, hs⟩
      | fault f => exact nomatch f
      | refused r => simp [cycles, hs] at h
  | succ k ih =>
      cases hs : step s with
      | next u =>
          rw [cycles_succ_of_step (k + 1) s u hs] at h
          obtain ⟨v, h1, h2⟩ := ih u h
          exact ⟨v, by rw [cycles_succ_of_step k s u hs, h1], h2⟩
      | fault f => exact nomatch f
      | refused r => simp [cycles, hs] at h

/-- The instance and the inputs after a run of `k` cycles. -/
theorem cycles_inst_inputAt (k : Nat) (s t : State) (h : cycles k s = .next t) :
    t.inst = s.inst ∧ ∀ j, t.inputAt j = s.inputAt (k + j) := by
  induction k generalizing s with
  | zero =>
      cases h
      simp
  | succ k ih =>
      cases hs : step s with
      | next u =>
          rw [cycles_succ_of_step k s u hs] at h
          obtain ⟨h1, h2⟩ := ih u h
          refine ⟨by rw [h1, step_inst s u hs], fun j => ?_⟩
          rw [h2, step_inputAt s u hs]
          congr 1
          omega
      | fault f => exact nomatch f
      | refused r => simp [cycles, hs] at h

theorem cycles_sampleAt (k : Nat) (s t : State) (h : cycles k s = .next t) (j : Nat) :
    t.sampleAt j = s.sampleAt (k + j) := by
  simp [State.sampleAt, cycles_inst_inputAt k s t h]

theorem cycles_riseAt (k : Nat) (s t : State) (h : cycles k s = .next t) (j : Nat) :
    t.riseAt j = s.riseAt (k + j) := by
  simp [State.riseAt, cycles_sampleAt k s t h, (cycles_inst_inputAt k s t h).1, Nat.add_assoc]

/-- The rise over a run and over what follows it add up. -/
theorem cycles_risen (k : Nat) (s t : State) (h : cycles k s = .next t) (j : Nat) :
    s.risen (k + j) = s.risen k + t.risen j := by
  induction j with
  | zero => rfl
  | succ j ih =>
      rw [← Nat.add_assoc, State.risen, ih, State.risen, cycles_riseAt k s t h, Nat.add_assoc]

/-- The premises on a longer run hold of what is left of it. -/
theorem cycles_countsWeakly (k n : Nat) (s t : State) (h : cycles k s = .next t)
    (hw : CountsWeakly s (k + n)) : CountsWeakly t n := by
  intro j hj
  rw [cycles_riseAt k s t h, (cycles_inst_inputAt k s t h).1]
  exact hw _ (by omega)

theorem cycles_noReset (k n : Nat) (s t : State) (h : cycles k s = .next t)
    (hr : NoReset s (k + n)) : NoReset t n := by
  intro j hj
  rw [(cycles_inst_inputAt k s t h).2]
  exact hr _ (by omega)

/-- In the nominal environment the `j`-th sample is `j` counts past the first. -/
theorem sampleAt_of_countsByOne (s : State) (k : Nat) (h : CountsByOne s k) :
    ∀ j, j ≤ k → s.sampleAt j = addWrap s.inst.cfg.w s.cyc j := by
  intro j
  induction j with
  | zero =>
      intro _
      simp [addWrap, State.cyc, Nat.mod_eq_of_lt (sampleAt_lt s 0)]
  | succ j ih =>
      intro hj
      rw [h j (by omega), ih (by omega), addWrap_addWrap]

/-- The block's own runs are the host interface's runs. -/
theorem cycles_eq_run (k : Nat) (s : State) :
    cycles k s = Host.Core.run Sys2Proof.core k s := by
  induction k generalizing s with
  | zero => rfl
  | succ k ih =>
      have hc : Sys2Proof.core.step s = step s := rfl
      simp only [cycles, Host.Core.run, hc]
      cases step s with
      | next t => exact ih t
      | fault f => rfl
      | refused r => rfl

end Sys2Proof.Machine
end

