-- ==== Sys2Proof/Laws/PerInstr.lean ====
section
/-! SUPPORT. Statements for all operations, one lemma a constructor. -/

namespace Sys2Proof.Laws.TableMatch
open Sys2Proof

/-- The format's width, the mask and the match of an operation's row in spec/opcode_table.json. -/
def row : Instr → Nat × Nat × Nat
  | .writebits _ _ => (11, 0x000, 0x000)
  | .writebyte _ => (11, 0x700, 0x700)
  | .seqIdle => (2, 0x3, 0x0)
  | .seqHigh => (2, 0x3, 0x1)
  | .seqLow => (2, 0x3, 0x2)

/-- The width and the bits of a code. -/
def bitsOf : Code → Nat × Nat
  | .cmd word => (11, word.toNat)
  | .seq f => (2, f.toNat)

/-- The code of an operation matches its own row of the opcode table. -/
def Statement (i : Instr) : Prop :=
  (bitsOf (encode i)).1 = (row i).1 ∧
    (bitsOf (encode i)).2 &&& (row i).2.1 = (row i).2.2

theorem writebits (n : BitIndex) (byte : Byte) : Statement (.writebits n byte) := by
  simp [Statement, bitsOf, encode, row]

/-- A word with `n = 7` has its three top bits set. -/
theorem make_seven_top (byte : Byte) :
    (CmdWord.make 7#3 byte).toNat &&& 0x700 = 0x700 := by
  have h : CmdWord.make 7#3 byte &&& 0x700#11 = 0x700#11 := by
    ext i hi
    simp only [CmdWord.make, BitVec.getElem_and, BitVec.getElem_append]
    interval_cases i <;> simp
  simpa using congrArg BitVec.toNat h

theorem writebyte (byte : Byte) : Statement (.writebyte byte) :=
  ⟨rfl, make_seven_top byte⟩

theorem seqIdle : Statement .seqIdle := ⟨rfl, rfl⟩
theorem seqHigh : Statement .seqHigh := ⟨rfl, rfl⟩
theorem seqLow : Statement .seqLow := ⟨rfl, rfl⟩

end Sys2Proof.Laws.TableMatch
end

