-- ==== Sys2Proof/Tests/Slice0.lean ====
section
/-! SUPPORT. The model's own tests: small facts with results worked out in spec/, each about one
step at most; and for every obligation with hypotheses a concrete state that meets them. -/

namespace Sys2Proof.Tests
open Sys2Proof Sys2Proof.Machine

/-! ### Well-formedness and decoding -/

/-- The one check of `Instr.wf`: `writebits 7` is the row WRITEBYTE's word. -/
theorem test_wf_refuses_writebits_seven : (Instr.writebits 7 0xA5).wf = false := by decide
theorem test_wf_takes_writebits_six : (Instr.writebits 6 0xA5).wf = true := by decide

/-- spec/95_test_vectors.md section 2, first rows: the words bit by bit. -/
theorem test_decode_writebits :
    decode (.cmd 0b010_11000000#11) = .ok (.writebits 2 0xC0) ∧
    decode (.cmd 0b011_10100000#11) = .ok (.writebits 3 0xA0) ∧
    decode (.cmd 0b000_00000000#11) = .ok (.writebits 0 0x00) := by decide

/-- spec/95_test_vectors.md section 2, last rows. -/
theorem test_decode_writebyte :
    decode (.cmd 0b111_10100101#11) = .ok (.writebyte 0xA5) ∧
    decode (.cmd 0b111_11111111#11) = .ok (.writebyte 0xFF) ∧
    decode (.cmd 0b111_00000000#11) = .ok (.writebyte 0x00) := by decide

/-- spec/30_encoding.md R85. -/
theorem test_decode_seq :
    decode (.seq 0b00#2) = .ok .seqIdle ∧ decode (.seq 0b01#2) = .ok .seqHigh ∧
    decode (.seq 0b10#2) = .ok .seqLow ∧
    decode (.seq 0b11#2) = .error .reservedSequencerState := by decide

/-- spec/30_encoding.md R80, R82: a word has 11 bits, `fsm` 2, and there is no other length. -/
theorem test_decode_refuses_by_name :
    decodeBytes [0x00, 0x08] = .error .tooWide ∧ decodeBytes [0x04] = .error .tooWide ∧
    decodeBytes [] = .error .noSuchFormat ∧
    decodeBytes [0, 0, 0] = .error .noSuchFormat := by decide

/-- The examples of spec/30_encoding.md R90 and R91. -/
theorem test_encode_examples :
    encode (.writebits 2 0xC0) = .cmd 0x2C0#11 ∧ encode (.writebyte 0xFF) = .cmd 0x7FF#11 := by
  decide

/-- The printed forms of spec/95_test_vectors.md section 2. -/
theorem test_text :
    Instr.text (.writebits 2 0xC0) = "WRITEBITS 3, 0xC0" ∧
    Instr.text (.writebyte 0xA5) = "WRITEBYTE 0xA5" := by decide

/-! ### Arithmetic (spec/95_test_vectors.md section 3) -/

theorem test_reached_eight_bits :
    [(5, 5), (4, 5), (6, 5), (132, 5), (133, 5), (2, 250), (249, 250), (121, 250), (0, 0)].map
        (fun p => reached 8 p.1 p.2) =
      [true, false, true, true, false, true, false, true, true] := by decide

theorem test_reached_thirty_two_bits :
    [(0x00000000, 0xFFFFFFFB), (0xFFFFFFFA, 0xFFFFFFFB), (0x7FFFFFFF, 0), (0x80000000, 0)].map
        (fun p => reached 32 p.1 p.2) =
      [true, false, true, false] := by decide

theorem test_cfg_ok :
    [Config.mk 32 3 4 3 0 0, Config.mk 32 3 4 3 1 0, Config.mk 3 1 1 1 0 0,
      Config.mk 3 1 1 2 0 0, Config.mk 8 40 50 37 0 0, Config.mk 8 40 50 38 0 0,
      Config.mk 32 3 4 0 0 0, Config.mk 32 0 4 3 0 0, Config.mk 32 3 4 3 0 2,
      Config.mk 2 1 1 1 0 0].map Config.ok =
      [true, true, true, false, true, false, false, false, false, false] := by decide

/-- spec/00_scope.md R8: a negative adjustment is refused. -/
theorem test_cfg_negative_adj : (Config.mk 32 3 4 3 (-1) 0).ok = false := by decide

/-! ### States to test on -/

/-- The inputs of a cycle with no command and no reset. -/
def quiet (cyc : Nat) : Inputs := { rst := false, cyc := cyc, cmdValid := false, cmdWord := 0 }

/-- The inputs of a cycle with a command presented. -/
def offer (cyc : Nat) (word : CmdWord) : Inputs := { quiet cyc with cmdValid := true, cmdWord := word }

/-- The inputs of a cycle with `rst = 1`. -/
def resetting (cyc : Nat) : Inputs := { quiet cyc with rst := true }

/-- The minimum configuration of spec/95_test_vectors.md V6 with the least width: `TOTAL = 3`. -/
def small : Instance := { cfg := Config.mk 3 1 1 1 0 0, valid := by decide }

/-- The default instance in the reset state, with the inputs of this cycle and those to come. -/
def fresh (script : List Inputs) : State := State.resetOf Instance.reference script

/-- The same for the small instance. -/
def tiny (script : List Inputs) : State := State.resetOf small script

/-- What a test looks at. -/
def seen (o : Host.Outcome State Fault Refusal) : Option Registers :=
  match o with
  | .next t => some t.registers
  | .fault _ => none
  | .refused _ => none

/-! ### One step of each operation: the examples of the rules -/

/-- spec/95_test_vectors.md S1, cycle 0: acceptance. -/
theorem test_writebyte_accepted :
    seen (exec (.writebyte 0xFF) (fresh [offer 100 0x7FF])) =
      some ⟨0, false, 0, 0, 0, true, 7, 0xFF⟩ := by decide

/-- spec/95_test_vectors.md V4, cycle 0. -/
theorem test_writebits_accepted :
    seen (exec (.writebits 2 0xC0) (fresh [offer 0 0x2C0])) =
      some ⟨0, false, 0, 0, 0, true, 2, 0xC0⟩ := by decide

/-- spec/95_test_vectors.md V10: a command presented while `rst = 1` is not accepted. -/
theorem test_writebits_not_accepted_in_reset :
    seen (exec (.writebits 2 0xC0) (fresh [resetting 0])) =
      some ⟨0, false, 0, 0, 0, false, 0, 0⟩ := by decide

/-- The example of R122. -/
theorem test_seqIdle_takes :
    seen (exec .seqIdle { fresh [quiet 101] with pv := true, pn := 7, pb := 0xFF }) =
      some ⟨1, true, 0xFF, 7, 111, false, 7, 0xFF⟩ := by decide

/-- spec/95_test_vectors.md V7, cycle 1: `mark` across the wrap of an 8-bit counter. -/
theorem test_seqIdle_mark_wraps :
    seen (exec .seqIdle { State.resetOf { cfg := Config.mk 8 3 4 3 0 0, valid := by decide }
        [quiet 246] with pv := true, pn := 2, pb := 0xA0 }) =
      some ⟨1, true, 0xA0, 2, 0, false, 2, 0xA0⟩ := by decide

/-- The example of R123, one count early and on time. -/
theorem test_seqHigh_drops_at_108 :
    seen (exec .seqHigh { fresh [quiet 107] with fsm := 1, pin := true, sr := 0xFF, mark := 111 }) =
      some ⟨1, true, 0xFF, 0, 111, false, 0, 0⟩ ∧
    seen (exec .seqHigh { fresh [quiet 108] with fsm := 1, pin := true, sr := 0xFF, mark := 111 }) =
      some ⟨2, false, 0xFF, 0, 111, false, 0, 0⟩ := by decide

/-- spec/95_test_vectors.md V4, cycle 24: a 0 bit drops after `T1` cycles. -/
theorem test_seqHigh_drops_zero_bit :
    seen (exec .seqHigh { fresh [quiet 24] with fsm := 1, pin := true, sr := 0x00, mark := 31 }) =
      some ⟨2, false, 0x00, 0, 31, false, 0, 0⟩ := by decide

/-- The example of R124, with a command pending: it is not taken. -/
theorem test_seqLow_next_bit :
    seen (exec .seqLow { fresh [quiet 111] with
        fsm := 2, sr := 0xFF, rem := 7, mark := 111, pv := true, pn := 1, pb := 0x22 }) =
      some ⟨1, true, 0xFE, 6, 121, true, 1, 0x22⟩ := by decide

/-- The examples of R125 and R126. -/
theorem test_seqLow_chains_or_goes_idle :
    seen (exec .seqLow { fresh [quiet 181] with
        fsm := 2, sr := 0x80, mark := 181, pv := true, pn := 7, pb := 0x00 }) =
      some ⟨1, true, 0x00, 7, 191, false, 7, 0x00⟩ ∧
    seen (exec .seqLow { fresh [quiet 20] with fsm := 2, sr := 0x80, mark := 20 }) =
      some ⟨0, false, 0x00, 0, 20, false, 0, 0⟩ := by decide

/-! ### One step of the machine -/

/-- spec/95_test_vectors.md G3, cycle 11: R126 and R101 in one step. -/
theorem test_step_idle_and_accept :
    seen (step { fresh [offer 11 0x000] with fsm := 2, sr := 0x80, mark := 11 }) =
      some ⟨0, false, 0x00, 0, 11, true, 0, 0x00⟩ := by decide

/-- spec/95_test_vectors.md V8, cycle 5: after a late sample the mark is counted from the sample. -/
theorem test_step_late_mark :
    seen (step { fresh [quiet 15] with fsm := 2, sr := 0x80, rem := 1, mark := 13 }) =
      some ⟨1, true, 0x00, 0, 25, false, 0, 0⟩ := by decide

/-- spec/95_test_vectors.md V10, cycle 5: reset cuts the symbol short. -/
theorem test_step_reset_in_symbol :
    seen (step { fresh [resetting 105] with fsm := 1, pin := true, sr := 0xFF, rem := 7, mark := 111 }) =
      some ⟨0, false, 0x00, 0, 0, false, 0, 0⟩ := by decide

/-- The host interface: a word placed on the port, and `fsm` placed, after reset. -/
theorem test_withFetchWord :
    seen (step (State.reset.withFetchWord 16 0x2C0)) = some ⟨0, false, 0, 0, 0, true, 2, 0xC0⟩ ∧
    seen (step (State.reset.withFetchWord 8 1)) = some ⟨2, false, 0, 0, 0, false, 0, 0⟩ ∧
    seen (step (State.reset.withFetchWord 8 3)) = none := by decide

/-! ### Witnesses: the hypotheses of each obligation, met -/

/-! A block in HIGH and in LOW before and at its thresholds, and other states the witnesses use. -/

def highWait : State := { tiny [quiet 0, quiet 1, quiet 2] with fsm := 1, pin := true, sr := 0x80, mark := 3 }
def highDrop : State := { tiny [quiet 2, quiet 3] with fsm := 1, pin := true, sr := 0x80, mark := 3 }
def lowWait : State := { tiny [quiet 2, quiet 3] with fsm := 2, sr := 0x80, mark := 3 }
def lowNext : State := { tiny [quiet 3, quiet 4] with fsm := 2, sr := 0x80, rem := 7, mark := 3 }
def lowChain : State := { tiny [quiet 3, quiet 4] with fsm := 2, sr := 0x80, mark := 3, pv := true, pn := 1, pb := 0xA5 }
def lowIdle : State := { tiny [quiet 3, quiet 4] with fsm := 2, sr := 0x80, mark := 3 }
def idlePending : State := { tiny [quiet 5, quiet 6] with pv := true, pn := 7, pb := 0xA5 }
def reservedState : State := { tiny [quiet 0, quiet 1] with fsm := 3 }

/-- A one-bit command about to be taken from idle at the sample 7, across the wrap of the 3-bit
counter, in the nominal environment. -/
def oneBit : State :=
  { tiny [quiet 7, quiet 0, quiet 1, quiet 2, quiet 3] with pv := true, pn := 0, pb := 0x80 }

/-- The same, with a second command presented in the window's first cycle. -/
def oneBitThenOffer : State :=
  { tiny [quiet 7, offer 0 0x2C0, quiet 1, quiet 2, quiet 3] with pv := true, pn := 0, pb := 0x80 }

/-- The same, with a second command presented in the window's last cycle. -/
def oneBitThenLateOffer : State :=
  { tiny [quiet 7, quiet 0, offer 1 0x2C0, quiet 2, quiet 3] with pv := true, pn := 0, pb := 0x80 }

/-- A command of two bits, `k * TOTAL = 6`, with the next one presented in the first cycle. -/
def twoBitsThenOffer : State :=
  { tiny [quiet 7, offer 0 0x2C0, quiet 1, quiet 2, quiet 3, quiet 4, quiet 5, quiet 6] with
    pv := true, pn := 1, pb := 0x80 }

theorem witness_DecodeOfEncode : (Instr.writebits 6 0xC0).wf = true ∧ (Instr.writebyte 0).wf = true := by
  decide

theorem witness_EncodeOfDecode : decode (.cmd 0x6FF#11) = .ok (.writebits 6 0xFF) := by decide

theorem witness_EveryWordIsACommand : (tiny [offer 0 0x7FF]).cmdReady = true := by decide

theorem witness_CommandIsAccepted :
    (tiny [offer 0 0x7FF]).pv = false ∧ (tiny [offer 0 0x7FF]).input.rst = false := by decide

theorem witness_UnreadyCommand :
    idlePending.pv = true ∧ (tiny [resetting 0]).input.rst = true := by decide

theorem witness_SeqIdle : (tiny []).pv = false ∧ idlePending.pv = true := by decide

/-- On the count of the drop point, and one count before it. -/
theorem witness_SeqHigh :
    reached highDrop.inst.cfg.w highDrop.cyc highDrop.dropPoint = true ∧
    reached highWait.inst.cfg.w (highDrop.cyc - 1) highDrop.dropPoint = false ∧
    reached highWait.inst.cfg.w highWait.cyc highWait.dropPoint = false := by decide

theorem witness_SeqLowWaits : reached lowWait.inst.cfg.w lowWait.cyc lowWait.mark = false := by
  decide

/-- `rem` at both ends of its range. -/
theorem witness_SeqLowStartsNextBit :
    (reached lowNext.inst.cfg.w lowNext.cyc lowNext.mark = true ∧ 0 < lowNext.rem.toNat) ∧
    0 < ({ lowNext with rem := 1 } : State).rem.toNat := by decide

theorem witness_SeqLowLastBit :
    (reached lowChain.inst.cfg.w lowChain.cyc lowChain.mark = true ∧ lowChain.rem = 0 ∧
      lowChain.pv = true) ∧
    (reached lowIdle.inst.cfg.w lowIdle.cyc lowIdle.mark = true ∧ lowIdle.rem = 0 ∧
      lowIdle.pv = false) := by decide

/-- With a transfer on the port and without one. -/
theorem witness_StepRuns :
    (lowIdle.input.rst = false ∧ decode (.seq lowIdle.fsm) = .ok .seqLow ∧
      ¬(lowIdle.input.cmdValid = true ∧ lowIdle.pv = false)) ∧
    ((tiny [offer 0 0x7FF]).input.rst = false ∧
      decode (.seq (tiny [offer 0 0x7FF]).fsm) = .ok .seqIdle ∧
      (tiny [offer 0 0x7FF]).input.cmdValid = true ∧ (tiny [offer 0 0x7FF]).pv = false) := by decide

theorem witness_ReservedState :
    reservedState.input.rst = false ∧ reservedState.fsm = 0b11#2 := by decide

theorem witness_ResetEdge : ({ reservedState with script := [resetting 1] } : State).input.rst = true := by
  decide

/-- A step that answers a next state, with `rst = 0`; several statements ask no more. -/
theorem witness_Step : lowIdle.input.rst = false ∧ ∃ t, step lowIdle = .next t :=
  ⟨by decide, _, rfl⟩

/-- A run of one cycle, for the statements about runs. -/
theorem witness_Run :
    Inv (tiny [quiet 0]) ∧ MarkInRange (tiny [quiet 0]) ∧ NoReset (tiny [quiet 0]) 1 ∧
      NoCommand (tiny [quiet 0]) 1 ∧
      ∃ t, cycles (0 + 1) (tiny [quiet 0]) = .next t ∧ t.busy = false := by
  refine ⟨⟨?_, ?_, ?_, ?_⟩, ?_, ?_, ?_, _, rfl, ?_⟩ <;>
    first | decide | (unfold MarkInRange; decide) | (unfold NoReset; decide) |
      (unfold NoCommand; decide)

/-- After a reset edge, one cycle without a command. -/
theorem witness_ResetBlockWaits :
    (tiny [resetting 1, quiet 2]).input.rst = true ∧
      ∃ u, step (tiny [resetting 1, quiet 2]) = .next u ∧ NoReset u 1 ∧ NoCommand u 1 := by
  refine ⟨by decide, _, rfl, ?_, ?_⟩
  · unfold NoReset
    decide
  · unfold NoCommand
    decide

/-- Each clause of the transition table has a state and a step. -/
theorem witness_SequencerTransitions :
    ((tiny [quiet 0]).fsm = 0b00#2 ∧ (tiny [quiet 0]).pv = false ∧
      (seen (step (tiny [quiet 0]))).isSome = true) ∧
    (idlePending.fsm = 0b00#2 ∧ idlePending.pv = true ∧ (seen (step idlePending)).isSome = true) ∧
    (highWait.fsm = 0b01#2 ∧ highWait.dropReached = false ∧
      (seen (step highWait)).isSome = true) ∧
    (highDrop.fsm = 0b01#2 ∧ highDrop.dropReached = true ∧
      (seen (step highDrop)).isSome = true) ∧
    (lowWait.fsm = 0b10#2 ∧ lowWait.markReached = false ∧ (seen (step lowWait)).isSome = true) ∧
    (lowNext.fsm = 0b10#2 ∧ lowNext.markReached = true ∧ lowNext.rem ≠ 0 ∧
      (seen (step lowNext)).isSome = true) ∧
    (lowChain.fsm = 0b10#2 ∧ lowChain.markReached = true ∧ lowChain.rem = 0 ∧ lowChain.pv = true ∧
      (seen (step lowChain)).isSome = true) ∧
    (lowIdle.fsm = 0b10#2 ∧ lowIdle.markReached = true ∧ lowIdle.rem = 0 ∧ lowIdle.pv = false ∧
      (seen (step lowIdle)).isSome = true) := by decide

/-- A command accepted in LOW, and a step with none accepted, with and without a take. -/
theorem witness_AcceptanceAtAnEdge :
    (({ lowWait with script := [offer 2 0x2C0] } : State).input.cmdValid = true ∧
      ({ lowWait with script := [offer 2 0x2C0] } : State).pv = false ∧
      (seen (step { lowWait with script := [offer 2 0x2C0] })).isSome = true) ∧
    (lowChain.takes = true ∧ lowIdle.takes = false) := by decide

/-- A take from idle and a take at the last mark. -/
theorem witness_Take :
    (idlePending.input.rst = false ∧ idlePending.pv = true ∧
      (∃ t, step idlePending = .next t ∧ t.pv = false)) ∧
    (lowChain.input.rst = false ∧ lowChain.pv = true ∧
      (∃ t, step lowChain = .next t ∧ t.pv = false)) :=
  ⟨⟨by decide, by decide, _, rfl, by decide⟩, by decide, by decide, _, rfl, by decide⟩

theorem witness_MarkIsWritten :
    lowNext.startsBit = some 0x00 ∧ lowChain.startsBit = some 0xA5 ∧ lowIdle.startsBit = none := by
  decide

/-- A 1 bit and a 0 bit, and a step that stays in HIGH. -/
theorem witness_DropPoint :
    highWait.sr.getLsbD 7 = true ∧ ({ highWait with sr := 0x7F } : State).sr.getLsbD 7 = false ∧
      ∃ t, step highWait = .next t ∧ t.fsm = 0b01#2 :=
  ⟨by decide, by decide, _, rfl, by decide⟩

theorem witness_BusyFalls :
    lowIdle.input.rst = false ∧ lowIdle.busy = true ∧ ∃ t, step lowIdle = .next t ∧ t.busy = false :=
  ⟨by decide, by decide, _, rfl, by decide⟩

theorem witness_Boot :
    (Config.mk 3 1 1 1 0 0).ok = true ∧
      (∀ t, boot (Config.mk 3 1 1 2 0 0) [] ≠ .next t) := by
  refine ⟨by decide, ?_⟩
  intro t h
  have hr : boot (Config.mk 3 1 1 2 0 0) [] = .refused .invalidConfiguration := rfl
  rw [hr] at h
  cases h

/-- Both ends of each clause, at the greatest `TOTAL` of an 8-bit counter. -/
theorem witness_Reached :
    (127 < 2 ^ 8 ∧ 127 ≤ 2 ^ (8 - 1) - 1) ∧ (128 < 2 ^ 8 ∧ ¬128 ≤ 2 ^ (8 - 1) - 1) ∧
    (Config.mk 8 40 50 37 0 0).ok = true ∧ (Config.mk 8 40 50 37 0 0).total = 127 := by decide

theorem witness_Lateness :
    reached 3 7 1 = false ∧ 3 ≤ 2 ^ (3 - 1) - 1 ∧ reached 3 ((7 + 3) % 2 ^ 3) 1 = true := by decide

theorem oneBit_noReset : NoReset oneBit 4 := by
  unfold NoReset
  decide

theorem oneBit_countsByOne : CountsByOne oneBit 3 := by
  unfold CountsByOne
  decide

/-- `k * TOTAL = 3` for the one-bit command; the receiver's `d` at its least value, `T1`. -/
theorem witness_Timing :
    oneBit.takes = true ∧ oneBit.startsBit = some 0x80 ∧
      bitCount oneBit.pn * oneBit.inst.cfg.total = 3 ∧ oneBit.inst.cfg.total = 3 ∧
      oneBit.inst.cfg.t1 ≤ 1 ∧ 1 < oneBit.inst.cfg.t1 + oneBit.inst.cfg.t2 ∧
      NoReset oneBit 4 ∧ CountsByOne oneBit 3 :=
  ⟨by decide, by decide, by decide, by decide, by decide, by decide, oneBit_noReset,
    oneBit_countsByOne⟩

theorem witness_CommandEndsIdle : NoCommand oneBit (bitCount oneBit.pn * oneBit.inst.cfg.total + 1) := by
  unfold NoCommand
  decide

/-- The window of R136 at both ends: its first cycle is 1 and its last is `3 - 1`. -/
theorem witness_NoGap :
    (oneBitThenOffer.takes = true ∧ NoReset oneBitThenOffer 4 ∧ CountsByOne oneBitThenOffer 3 ∧
      (oneBitThenOffer.inputAt 1).cmdValid = true) ∧
    (oneBitThenLateOffer.takes = true ∧ NoReset oneBitThenLateOffer 4 ∧
      CountsByOne oneBitThenLateOffer 3 ∧ (oneBitThenLateOffer.inputAt 2).cmdValid = true ∧
      (oneBitThenLateOffer.inputAt 1).cmdValid = false) ∧
    (bitCount oneBitThenOffer.pn = 1 ∧ oneBitThenOffer.pin = false) ∧
    (twoBitsThenOffer.takes = true ∧ bitCount twoBitsThenOffer.pn = 2 ∧
      NoReset twoBitsThenOffer 7 ∧ CountsByOne twoBitsThenOffer 6 ∧
      (twoBitsThenOffer.inputAt 1).cmdValid = true) := by
  unfold NoReset CountsByOne
  decide

/-- R137 from idle, and in the cycle in which the sequencer goes to idle. -/
theorem witness_StartFromIdle :
    (NoReset (tiny [offer 0 0x2C0, quiet 1]) 2 ∧
      (tiny [offer 0 0x2C0, quiet 1]).input.cmdValid = true ∧
      (tiny [offer 0 0x2C0, quiet 1]).pv = false ∧ (tiny [offer 0 0x2C0, quiet 1]).fsm = 0b00#2) ∧
    (NoReset { lowIdle with script := [offer 3 0x2C0, quiet 4] } 2 ∧
      ({ lowIdle with script := [offer 3 0x2C0, quiet 4] } : State).input.cmdValid = true ∧
      lowIdle.pv = false ∧ lowIdle.fsm = 0b10#2 ∧ lowIdle.rem = 0 ∧
      ({ lowIdle with script := [offer 3 0x2C0, quiet 4] } : State).markReached = true) := by
  unfold NoReset
  decide

/-- A counter stopped at 0 in HIGH and at 2 in LOW. -/
theorem witness_StoppedCounter :
    (NoReset { highWait with script := [quiet 0, quiet 0] } 2 ∧ highWait.fsm = 0b01#2 ∧
      ∀ j, j < 2 → reached highWait.inst.cfg.w
        (({ highWait with script := [quiet 0, quiet 0] } : State).sampleAt j)
        highWait.dropPoint = false) ∧
    (NoReset { lowWait with script := [quiet 2, quiet 2] } 2 ∧ lowWait.fsm = 0b10#2 ∧
      ∀ j, j < 2 → reached lowWait.inst.cfg.w
        (({ lowWait with script := [quiet 2, quiet 2] } : State).sampleAt j)
        lowWait.mark = false) := by
  unfold NoReset
  decide

/-- A counter that pauses and then rises by 3. -/
def highPause : State :=
  { tiny [quiet 0, quiet 0, quiet 3, quiet 3] with fsm := 1, pin := true, sr := 0x80, mark := 3 }

/-- LOW entered with the mark passed by two counts, the case of spec/95_test_vectors.md V8,
cycle 5. -/
def lowLate : State := { tiny [quiet 5, quiet 6] with fsm := 2, sr := 0x80, mark := 3 }

/-- LOW with the mark exactly `2^(W-1) = 4` counts ahead, where no sample has reached it. -/
def lowFar : State :=
  { tiny [quiet 7, quiet 1, quiet 1, quiet 3] with fsm := 2, sr := 0x80, mark := 3 }

/-- HIGH with a pause; LOW one count before the mark, two past it, and half the range before it. -/
theorem witness_EveryBitIsStillSent :
    (highPause.fsm = 0b01#2 ∧ NoReset highPause (2 + 1) ∧ CountsWeakly highPause 2 ∧
      highPause.riseAt 0 = 0 ∧
      subWrap highPause.inst.cfg.w highPause.dropPoint highPause.cyc ≤ highPause.risen 2) ∧
    (lowWait.fsm = 0b10#2 ∧ NoReset lowWait 1 ∧ CountsWeakly lowWait 1 ∧
      subWrap lowWait.inst.cfg.w lowWait.mark lowWait.cyc ≤ lowWait.risen 1) ∧
    (lowFar.fsm = 0b10#2 ∧ NoReset lowFar 3 ∧ CountsWeakly lowFar 3 ∧
      subWrap lowFar.inst.cfg.w lowFar.mark lowFar.cyc = 4 ∧ lowFar.risen 3 = 4) ∧
    (lowLate.fsm = 0b10#2 ∧ NoReset lowLate 0 ∧ CountsWeakly lowLate 0 ∧
      reached lowLate.inst.cfg.w lowLate.cyc lowLate.mark = true) := by
  unfold NoReset CountsWeakly
  decide

/-- A one-bit command about to be taken, under a counter that rises by 3, and by 1 once. -/
def oneBitFast : State :=
  { tiny [quiet 0, quiet 3, quiet 6, quiet 1, quiet 4, quiet 7, quiet 2, quiet 3] with
    pv := true, pn := 0, pb := 0x80 }

/-- The counter has risen by exactly `TOTAL + 2 * 2^W = 19` in the seven edges. -/
theorem witness_StartedBit :
    oneBitFast.startsBit = some 0x80 ∧ NoReset oneBitFast 7 ∧ CountsWeakly oneBitFast 7 ∧
      oneBitFast.risen 7 = oneBitFast.inst.cfg.total + 2 * 2 ^ oneBitFast.inst.cfg.w := by
  unfold NoReset CountsWeakly
  decide

/-- The drop point 2 is first seen passed at the sample 3, the first sample of HIGH. -/
theorem witness_FallingEdge :
    oneBitFast.startsBit = some 0x80 ∧ CountsWeakly oneBitFast (0 + 1) ∧
      pinAfter 1 oneBitFast = some true ∧
      ∃ t, cycles (0 + 1) oneBitFast = .next t ∧ t.dropReached = true ∧ t.input.rst = false ∧
        subWrap t.inst.cfg.w t.cyc t.dropPoint = 1 := by
  refine ⟨by decide, by unfold CountsWeakly; decide, by decide, _, rfl, ?_⟩
  decide

/-- The mark 3 is first seen passed in LOW at the sample 5, three counts on. -/
theorem witness_RisingEdge :
    lowWait.fsm = 0b10#2 ∧ lowWait.input.rst = false ∧ lowWait.markReached = false ∧
      ({ lowWait with script := [quiet 2, quiet 5] } : State).riseAt 0 = 3 ∧
      ∃ t, step { lowWait with script := [quiet 2, quiet 5] } = .next t ∧ t.markReached = true ∧
        subWrap t.inst.cfg.w t.cyc t.mark = 2 :=
  ⟨by decide, by decide, by decide, by decide, _, rfl, by decide⟩

/-- Two blocks that differ in the word presented while the pending register is full. -/
theorem witness_UnacceptedPort :
    ({ idlePending with script := [offer 5 0x2C0] } : State).registers = idlePending.registers ∧
      ({ idlePending with script := [offer 5 0x2C0] } : State).cyc = idlePending.cyc ∧
      ({ idlePending with script := [offer 5 0x2C0] } : State).accepts = false ∧
      idlePending.accepts = false ∧
      ({ idlePending with script := [offer 5 0x2C0] } : State).input.rst = idlePending.input.rst ∧
      ({ idlePending with script := [offer 5 0x2C0] } : State).inst = idlePending.inst ∧
      ∃ t, step { idlePending with script := [offer 5 0x2C0] } = .next t :=
  ⟨by decide, by decide, by decide, by decide, by decide, rfl, _, rfl⟩

/-- Two idle blocks that see different counts. -/
theorem witness_IdleReadsNoCounter :
    (tiny [quiet 0]).registers = (tiny [quiet 5]).registers ∧ (tiny [quiet 0]).pv = false ∧
      (tiny [quiet 0]).fsm = 0b00#2 ∧
      (tiny [quiet 0]).input.rst = (tiny [quiet 5]).input.rst ∧
      (tiny [quiet 0]).input.cmdValid = (tiny [quiet 5]).input.cmdValid ∧
      (tiny [quiet 0]).input.cmdWord = (tiny [quiet 5]).input.cmdWord ∧
      ∃ t, step (tiny [quiet 0]) = .next t :=
  ⟨by decide, by decide, by decide, by decide, by decide, by decide, _, rfl⟩

/-- An empty pending register, with a command accepted and without. -/
theorem witness_EmptyPendingRegister :
    ((tiny [offer 0 0x2C0]).pv = false ∧ ∃ t, step (tiny [offer 0 0x2C0]) = .next t ∧ t.pv = true) ∧
    (lowNext.pv = false ∧ ∃ t, step lowNext = .next t ∧ t.pv = false) :=
  ⟨⟨by decide, _, rfl, by decide⟩, by decide, _, rfl, by decide⟩

end Sys2Proof.Tests
end

section
/-! PROOFS of the statements about spec/00_scope.md: the instances that exist (R11) and the
comparison of the counter with a threshold (R16). -/

namespace Sys2Proof.Machine

/-! ### Making an instance (spec/00_scope.md R11) -/

theorem boot_of_ok (c : Config) (script : List Inputs) (h : c.ok = true) :
    boot c script = .next (State.resetOf ⟨c, h⟩ script) := dif_pos h

theorem boot_of_not_ok (c : Config) (script : List Inputs) (h : ¬c.ok = true) :
    boot c script = .refused .invalidConfiguration := dif_neg h

theorem ok_of_boot_next {c : Config} {script : List Inputs} {t : State}
    (h : boot c script = .next t) : c.ok = true := by
  by_contra hn
  rw [boot_of_not_ok c script hn] at h
  cases h

/-- The reset values of the table of spec/10_state.md R30. -/
theorem resetOf_registers (inst : Instance) (script : List Inputs) :
    (State.resetOf inst script).registers = ⟨0b00#2, false, 0#8, 0#3, 0, false, 0#3, 0#8⟩ := rfl

/-- With `ADJ` at least zero, `TOTAL` of R10 loses nothing to `toNat`. -/
theorem Config.coe_total (c : Config) (h : 0 ≤ c.adj) :
    (c.total : Int) = (c.p1 : Int) + c.p2 + c.p3 + 3 * c.adj := by
  simp only [Config.total, Config.t1, Config.t2, Config.t3]
  omega

/-- The last clause of R11 over the integers, where the subtraction does not truncate. -/
theorem Config.total_le_iff (c : Config) (h : 0 ≤ c.adj) :
    c.total ≤ 2 ^ (c.w - 1) - 1 ↔
      (c.p1 : Int) + c.p2 + c.p3 + 3 * c.adj ≤ 2 ^ (c.w - 1) - 1 := by
  have hpos : 1 ≤ 2 ^ (c.w - 1) := Nat.one_le_two_pow
  rw [← Config.coe_total c h, ← Nat.cast_le (α := Int)]
  push_cast [hpos]
  rfl

theorem Config.one_le_t3_iff (c : Config) : 1 ≤ c.t3 ↔ 1 ≤ (c.p3 : Int) + c.adj := by
  simp only [Config.t3]
  omega

/-- `CFG_OK` over the raw fields of the record, with no derived constant. -/
theorem Config.ok_iff_fields (c : Config) :
    c.ok = true ↔
      3 ≤ c.w ∧ 1 ≤ c.p1 ∧ 1 ≤ c.p2 ∧ 1 ≤ c.p3 ∧ 0 ≤ c.adj ∧ 1 ≤ (c.p3 : Int) + c.adj ∧
        c.pad = 0 ∧ (c.p1 : Int) + c.p2 + c.p3 + 3 * c.adj ≤ 2 ^ (c.w - 1) - 1 := by
  rw [Config.ok_iff, Config.one_le_t3_iff]
  constructor
  · rintro ⟨hw, h1, h2, h3, hadj, ht3, hpad, htotal⟩
    exact ⟨hw, h1, h2, h3, hadj, ht3, hpad, (Config.total_le_iff c hadj).1 htotal⟩
  · rintro ⟨hw, h1, h2, h3, hadj, ht3, hpad, htotal⟩
    exact ⟨hw, h1, h2, h3, hadj, ht3, hpad, (Config.total_le_iff c hadj).2 htotal⟩

/-- Settles O32: `boot` tests `CFG_OK` alone, and `CFG_OK` is its clauses over the raw fields. -/
theorem instanceExistsExactlyWhenCfgOk : Obligations.InstanceExistsExactlyWhenCfgOk := by
  intro c script
  rw [← Config.ok_iff_fields]
  refine ⟨⟨?exists_ok, ?ok_exists⟩, ?refused⟩
  case exists_ok =>
    rintro ⟨t, ht, -, -⟩
    exact ok_of_boot_next ht
  case ok_exists =>
    intro h
    exact ⟨_, boot_of_ok c script h, rfl, resetOf_registers _ _⟩
  case refused =>
    intro hnone
    exact boot_of_not_ok c script fun h => hnone _ (boot_of_ok c script h)

/-! ### The comparison (spec/00_scope.md R16) -/

theorem reached_iff (w c t : Nat) : reached w c t = true ↔ subWrap w c t < 2 ^ (w - 1) :=
  decide_eq_true_iff

/-- A count `e` past a threshold is at the difference `e`, wherever the counter wraps. -/
theorem subWrap_add_left (w t e : Nat) (h : e < 2 ^ w) :
    subWrap w ((t + e) % 2 ^ w) (t % 2 ^ w) = e := by
  rw [subWrap_mod, subWrap_of_le w (t + e) t (by omega) (by omega)]
  omega

/-- Settles O33: the difference of the two counts is `e`, and `reached` compares it with half the
range. -/
theorem reachedIsTheHalfRange : Obligations.ReachedIsTheHalfRange := by
  intro w t e _ he
  have hpos : 0 < 2 ^ (w - 1) := Nat.two_pow_pos _
  rw [reached_iff, subWrap_add_left w t e he]
  omega

end Sys2Proof.Machine
end

section
/-! PROOFS of the statements about spec/10_state.md: the reset values (R46), the invariants (R48),
the outputs and the handshake (R40 to R44), and when `mark` (R35), `busy` (R43) and the pending
register (R36) change or are read. -/

namespace Sys2Proof.Machine

/-! ### Reset (spec/10_state.md R46) -/

theorem cmdReady_iff (s : State) :
    s.cmdReady = true ↔ (s.pv = false ∧ s.input.rst = false) := by
  simp [State.cmdReady]

/-- Settles O19: the reset edge is one case of the step, and it reads nothing but the state's own
plan of inputs. -/
theorem resetEdgeClearsEveryRegister : Obligations.ResetEdgeClearsEveryRegister := by
  intro s hrst
  have hready : s.cmdReady = false := by simp [State.cmdReady, hrst]
  exact ⟨hready, _, step_of_rst s hrst, rfl⟩

/-! ### The invariants (spec/10_state.md R48) -/

theorem busy_iff (s : State) : s.busy = true ↔ (s.fsm ≠ Fsm.idle ∨ s.pv = true) := by
  simp [State.busy]

theorem busy_eq_false_iff (s : State) : s.busy = false ↔ (s.fsm = Fsm.idle ∧ s.pv = false) := by
  simp [State.busy]

/-- The four invariants by the value of `fsm`. The one about `busy` follows from the others: a
block that is not busy is idle, and the pin is high in `HIGH` only. -/
theorem inv_iff (s : State) :
    Inv s ↔ (s.fsm = Fsm.idle ∧ s.pin = false ∧ s.rem = 0#3) ∨
      (s.fsm = Fsm.high ∧ s.pin = true) ∨ (s.fsm = Fsm.low ∧ s.pin = false) := by
  constructor
  · rintro ⟨hlegal, hpin, hrem, -⟩
    rcases hlegal with hf | hf | hf
    · exact .inl ⟨hf, by simpa [hf] using hpin, hrem hf⟩
    · exact .inr (.inl ⟨hf, hpin.2 hf⟩)
    · exact .inr (.inr ⟨hf, by simpa [hf] using hpin⟩)
  · rintro (⟨hf, hp, hr⟩ | ⟨hf, hp⟩ | ⟨hf, hp⟩)
    · exact ⟨.inl hf, by simp [hf, hp], fun _ => hr, fun _ => hp⟩
    · exact ⟨.inr (.inl hf), by simp [hf, hp], by simp [hf], by simp [busy_eq_false_iff, hf]⟩
    · exact ⟨.inr (.inr hf), by simp [hf, hp], by simp [hf], fun _ => hp⟩

/-- The invariants read `fsm`, `pin` and `rem` only. -/
theorem Inv.congr {s t : State} (h : Inv s) (hfsm : t.fsm = s.fsm) (hpin : t.pin = s.pin)
    (hrem : t.rem = s.rem) : Inv t := by
  rw [inv_iff] at h ⊢
  rwa [hfsm, hpin, hrem]

theorem inv_resetOf (inst : Instance) (script : List Inputs) : Inv (State.resetOf inst script) :=
  (inv_iff _).2 (.inl ⟨rfl, rfl, rfl⟩)

theorem inv_of_rst (s t : State) (hrst : s.input.rst = true) (h : step s = .next t) : Inv t := by
  rw [step_of_rst s hrst] at h
  cases h
  exact (inv_resetOf s.inst []).congr rfl rfl rfl

/-- Settles O29: both kinds of reset leave the registers the invariants read at the values of
`State.resetOf`. -/
theorem invariantsHoldAfterReset : Obligations.InvariantsHoldAfterReset :=
  ⟨inv_resetOf _ _, inv_resetOf, inv_of_rst⟩

theorem inv_startBit (v : Byte) (r : BitIndex) (s : State) : Inv (startBit v r s) :=
  (inv_iff _).2 (.inr (.inl ⟨rfl, rfl⟩))

theorem inv_takePending (s : State) : Inv (takePending s) :=
  (inv_iff _).2 (.inr (.inl ⟨rfl, rfl⟩))

theorem inv_dropPin (s : State) : Inv (dropPin s) :=
  (inv_iff _).2 (.inr (.inr ⟨rfl, rfl⟩))

/-- `goIdle` keeps `rem`, so it is the place where the invariant needs `rem = 0`. -/
theorem inv_goIdle (s : State) (hrem : s.rem = 0#3) : Inv (goIdle s) :=
  (inv_iff _).2 (.inl ⟨rfl, rfl, hrem⟩)

/-- The port part and the end of the cycle write nothing the invariants read. -/
theorem Inv.nextCycle_afterPort {a : State} (h : Inv a) (s : State) :
    Inv (nextCycle (afterPort s a)) :=
  h.congr (by simp) (by simp) (by simp)

/-- Settles O28: each of the sequencer's writes establishes the invariants, and a wait keeps
them. -/
theorem invariantsAreKept : Obligations.InvariantsAreKept := by
  intro s t hs h
  rcases step_cases s t h with ⟨hrst, -⟩ | ⟨-, a, rfl, hcase⟩
  · exact inv_of_rst s t hrst h
  · refine Inv.nextCycle_afterPort ?_ s
    rcases hcase with ⟨-, -, rfl⟩ | ⟨-, -, rfl⟩ | ⟨-, -, rfl⟩ | ⟨-, -, rfl⟩ | ⟨-, -, rfl⟩ |
      ⟨-, -, -, rfl⟩ | ⟨-, -, -, -, rfl⟩ | ⟨-, -, hrem, -, rfl⟩
    · exact hs
    · exact inv_takePending s
    · exact hs
    · exact inv_dropPin s
    · exact hs
    · exact inv_startBit _ _ s
    · exact inv_takePending s
    · exact inv_goIdle s hrem

/-! ### The pending register over one step (spec/10_state.md R36, R44) -/

theorem takes_iff (s : State) :
    s.takes = true ↔ s.pv = true ∧
      (s.fsm = Fsm.idle ∨ (s.fsm = Fsm.low ∧ s.rem = 0#3 ∧ s.markReached = true)) := by
  simp [State.takes, and_assoc]

theorem takes_eq_false_of_pv (s : State) (h : s.pv = false) : s.takes = false := by
  simp [State.takes, h]

theorem takes_eq_false_of_high (s : State) (hfsm : s.fsm = Fsm.high) : s.takes = false := by
  simp [State.takes, hfsm]

/-- In `LOW` nothing is taken before the end of the command's last bit. -/
theorem takes_eq_false_of_low (s : State) (hfsm : s.fsm = Fsm.low)
    (h : s.markReached = false ∨ s.rem ≠ 0#3) : s.takes = false := by
  rcases h with hm | hr
  · simp [State.takes, hfsm, hm]
  · simp [State.takes, hfsm, hr]

/-- `pv` after a step without a reset: full where a command is accepted, or where one was pending
and is not taken. -/
theorem step_pv (s t : State) (hrst : s.input.rst = false) (h : step s = .next t) :
    t.pv = (s.accepts || (s.pv && !s.takes)) := by
  rcases step_cases s t h with ⟨hr, -⟩ | ⟨-, a, rfl, hcase⟩
  · simp [hrst] at hr
  · have hseq : a.pv = (s.pv && !s.takes) := by
      rcases hcase with ⟨-, hp, rfl⟩ | ⟨hf, hp, rfl⟩ | ⟨hf, -, rfl⟩ | ⟨hf, -, rfl⟩ |
        ⟨hf, hm, rfl⟩ | ⟨hf, -, hr, rfl⟩ | ⟨hf, hm, hr, hp, rfl⟩ | ⟨-, -, -, hp, rfl⟩
      · simp [hp]
      · simp [(takes_iff s).2 ⟨hp, .inl hf⟩]
      · simp [takes_eq_false_of_high _ hf]
      · simp [takes_eq_false_of_high s hf]
      · simp [takes_eq_false_of_low _ hf (.inl hm)]
      · simp [takes_eq_false_of_low s hf (.inr hr)]
      · simp [(takes_iff s).2 ⟨hp, .inr ⟨hf, hr, hm⟩⟩]
      · simp [hp]
    rw [nextCycle_pv, afterPort_pv, hseq]
    cases s.accepts <;> rfl

theorem step_pv_of_rst (s t : State) (hrst : s.input.rst = true) (h : step s = .next t) :
    t.pv = false := by
  rw [step_of_rst s hrst] at h
  cases h
  rfl

/-- Settles O22: the outputs are their own definitions; an empty pending register is full after a
step exactly where that step accepts, as there is nothing in it to be taken. -/
theorem outputsAndHandshake : Obligations.OutputsAndHandshake := by
  intro s
  refine ⟨cmdReady_iff s, rfl, rfl, busy_iff s, fun t h => ?_⟩
  cases hrst : s.input.rst
  case true => simp [step_pv_of_rst s t hrst h, cmdReady_iff, hrst]
  case false =>
    rw [step_pv s t hrst h, cmdReady_iff]
    cases hp : s.pv <;> simp [accepts_iff s hrst, hp, hrst]

/-! ### Where a bit starts (spec/10_state.md R35) -/

theorem startsBit_of_takes (s : State) (h : s.takes = true) : s.startsBit = some s.pb := by
  simp [State.startsBit, h]

theorem startsBit_of_nextBit (s : State) (hfsm : s.fsm = Fsm.low) (hmark : s.markReached = true)
    (hrem : s.rem ≠ 0#3) : s.startsBit = some (shiftLeftOne s.sr) := by
  simp [State.startsBit, takes_eq_false_of_low s hfsm (.inr hrem), hfsm, hmark, hrem]

/-- No bit starts where nothing is taken and no further bit of the command is due. -/
theorem startsBit_eq_none (s : State) (htakes : s.takes = false)
    (hnext : s.fsm = Fsm.low → s.markReached = true → s.rem = 0#3) : s.startsBit = none := by
  simpa [State.startsBit, htakes] using hnext

/-- What the sequencer part `a` of a step without a reset does to `mark`, `sr`, `pin` and `fsm`,
by whether it starts a bit. -/
def BitStartOrKeep (s a : State) : Prop :=
  (s.startsBit = some a.sr ∧ a.mark = addWrap s.inst.cfg.w s.cyc s.inst.cfg.total ∧
    a.pin = true ∧ a.fsm = Fsm.high) ∨
  (s.startsBit = none ∧ a.mark = s.mark ∧ (a.pin = true → s.pin = true))

/-- A step without a reset either starts a bit at this cycle's sample, or keeps `mark` and does not
drive the pin high. -/
theorem step_bitStartOrKeep (s t : State) (hrst : s.input.rst = false) (h : step s = .next t) :
    BitStartOrKeep s t := by
  rcases step_cases s t h with ⟨hr, -⟩ | ⟨-, a, rfl, hcase⟩
  · simp [hrst] at hr
  · suffices hseq : BitStartOrKeep s a by simpa [BitStartOrKeep] using hseq
    rcases hcase with ⟨hf, hp, rfl⟩ | ⟨hf, hp, rfl⟩ | ⟨hf, -, rfl⟩ | ⟨hf, -, rfl⟩ | ⟨hf, hm, rfl⟩ |
      ⟨hf, hm, hr, rfl⟩ | ⟨hf, hm, hr, hp, rfl⟩ | ⟨-, -, hr, hp, rfl⟩
    · exact .inr ⟨startsBit_eq_none _ (takes_eq_false_of_pv _ hp) (by simp [hf]), rfl, id⟩
    · exact .inl ⟨startsBit_of_takes s ((takes_iff s).2 ⟨hp, .inl hf⟩), rfl, rfl, rfl⟩
    · exact .inr ⟨startsBit_eq_none _ (takes_eq_false_of_high _ hf) (by simp [hf]), rfl, id⟩
    · exact .inr ⟨startsBit_eq_none s (takes_eq_false_of_high s hf) (by simp [hf]), rfl, by simp⟩
    · have htakes := takes_eq_false_of_low _ hf (.inl hm)
      exact .inr ⟨startsBit_eq_none _ htakes (by simp [hm]), rfl, id⟩
    · exact .inl ⟨startsBit_of_nextBit s hf hm hr, rfl, rfl, rfl⟩
    · have htakes := (takes_iff s).2 ⟨hp, .inr ⟨hf, hr, hm⟩⟩
      exact .inl ⟨startsBit_of_takes s htakes, rfl, rfl, rfl⟩
    · exact .inr ⟨startsBit_eq_none s (takes_eq_false_of_pv s hp) (fun _ _ => hr), rfl, by simp⟩

/-- Settles O25: the two halves of `BitStartOrKeep` exclude each other by `startsBit`. -/
theorem markIsWrittenAtBitStartOnly : Obligations.MarkIsWrittenAtBitStartOnly := by
  intro s t hrst h
  rcases step_bitStartOrKeep s t hrst h with ⟨hstart, hmark, hpin, hfsm⟩ | ⟨hnone, hmark, hpin⟩
  · refine ⟨fun v hv => ?_, fun hv => ?_⟩
    · exact ⟨hmark, Option.some.inj (hstart.symm.trans hv), hpin, hfsm⟩
    · simp [hstart] at hv
  · refine ⟨fun v hv => ?_, fun _ => ⟨hmark, hpin⟩⟩
    simp [hnone] at hv

/-- A written `mark` is a sum modulo `2^W`, a reset one is 0, and any other is the old one. -/
theorem step_markInRange (s t : State) (hs : MarkInRange s) (h : step s = .next t) :
    MarkInRange t := by
  unfold MarkInRange at hs ⊢
  rw [step_inst s t h]
  cases hrst : s.input.rst
  case true =>
    rw [step_of_rst s hrst] at h
    cases h
    exact Nat.two_pow_pos _
  case false =>
    rcases step_bitStartOrKeep s t hrst h with ⟨-, hmark, -, -⟩ | ⟨-, hmark, -⟩
    · rw [hmark]
      exact addWrap_lt _ _ _
    · rwa [hmark]

/-- What every step keeps, every run keeps. -/
theorem cycles_induction {P : State → Prop}
    (hstep : ∀ s t, P s → step s = .next t → P t) (k : Nat) (s t : State) (hs : P s)
    (h : cycles k s = .next t) : P t := by
  induction k generalizing t with
  | zero =>
      cases h
      exact hs
  | succ k ih =>
      obtain ⟨u, hu, hlast⟩ := cycles_succ_last k s t h
      exact hstep u t (ih u hu) hlast

/-- Settles O30: every step keeps the range, so every run does. -/
theorem markStaysInRange : Obligations.MarkStaysInRange :=
  ⟨fun s t k hs h => cycles_induction step_markInRange k s t hs h, Nat.two_pow_pos _⟩

/-! ### Where `busy` falls (spec/10_state.md R43) -/

/-- A step without a reset that ends in `IDLE` waits there with nothing pending, or goes there from
`LOW` at the last mark. -/
theorem step_to_idle_cases (s t : State) (hrst : s.input.rst = false) (h : step s = .next t)
    (hidle : t.fsm = Fsm.idle) :
    s.pv = false ∧ (s.fsm = Fsm.idle ∨
      (s.fsm = Fsm.low ∧ s.markReached = true ∧ s.rem = 0#3 ∧ t.pin = false)) := by
  rcases step_cases s t h with ⟨hr, -⟩ | ⟨-, a, rfl, hcase⟩
  · simp [hrst] at hr
  · simp only [nextCycle_fsm, afterPort_fsm, nextCycle_pin, afterPort_pin] at hidle ⊢
    rcases hcase with ⟨hf, hp, rfl⟩ | ⟨-, -, rfl⟩ | ⟨hf, -, rfl⟩ | ⟨-, -, rfl⟩ | ⟨hf, -, rfl⟩ |
      ⟨-, -, -, rfl⟩ | ⟨-, -, -, -, rfl⟩ | ⟨hf, hm, hr, hp, rfl⟩
    · exact ⟨hp, .inl hf⟩
    · simp at hidle
    · simp [hf] at hidle
    · simp at hidle
    · simp [hf] at hidle
    · simp at hidle
    · simp at hidle
    · exact ⟨hp, .inr ⟨hf, hm, hr, rfl⟩⟩

/-- Settles O27: a step to a block that is not busy ends in `IDLE` with nothing accepted; it did
not begin there, as the block was busy with nothing pending. -/
theorem busyFallsAtTheLastMark : Obligations.BusyFallsAtTheLastMark := by
  intro s t hrst h hbusy hquiet
  obtain ⟨hidle, hempty⟩ := (busy_eq_false_iff t).1 hquiet
  obtain ⟨hpv, hfrom⟩ := step_to_idle_cases s t hrst h hidle
  have hvalid : s.input.cmdValid = false := by
    have haccepts : s.accepts = false := by
      simpa [step_pv s t hrst h, hpv] using hempty
    simpa [accepts_iff s hrst, hpv] using Bool.eq_false_iff.1 haccepts
  have hfsm : s.fsm ≠ Fsm.idle := by simpa [busy_iff, hpv] using hbusy
  rcases hfrom with hf | ⟨hf, hmark, hrem, hpin⟩
  · exact absurd hf hfsm
  · exact ⟨hf, hmark, hrem, hpv, hvalid, hidle, hpin⟩

/-! ### The empty pending register is unread (spec/10_state.md R36) -/

/-- The state with other contents in `pn` and `pb`. -/
def withPending (n : BitIndex) (byte : Byte) (s : State) : State := { s with pn := n, pb := byte }

/-- The sequencer part of a step without a reset, under the name of its operation. -/
theorem step_seq (s t : State) (hrst : s.input.rst = false) (h : step s = .next t) :
    ∃ i a, decodeSeq s.fsm = .ok i ∧ exec i s = .next a ∧ t = nextCycle (afterPort s a) := by
  have key : ∀ i a, decodeSeq s.fsm = .ok i → exec i s = .next a →
      ∃ i a, decodeSeq s.fsm = .ok i ∧ exec i s = .next a ∧ t = nextCycle (afterPort s a) := by
    intro i a hd he
    rw [step_of_seq s a i hrst hd he] at h
    exact ⟨i, a, hd, he, (Host.Outcome.next.inj h).symm⟩
  rcases fsm_cases s.fsm with hf | hf | hf | hf
  · exact key .seqIdle _ (hf ▸ decodeSeq_idle) rfl
  · exact key .seqHigh _ (hf ▸ decodeSeq_high) rfl
  · exact key .seqLow _ (hf ▸ decodeSeq_low) rfl
  · rw [step_of_reserved s hrst hf] at h
    cases h

/-- A value of `fsm` selects one of the sequencer's three cases, never a command. -/
theorem decodeSeq_cases {f : SeqCode} {i : Instr} (h : decodeSeq f = .ok i) :
    i = .seqIdle ∨ i = .seqHigh ∨ i = .seqLow := by
  rcases fsm_cases f with rfl | rfl | rfl | rfl
  · exact .inl (Except.ok.inj h).symm
  · exact .inr (.inl (Except.ok.inj h).symm)
  · exact .inr (.inr (Except.ok.inj h).symm)
  · cases h

/-- With nothing pending, the sequencer's cases carry `pn` and `pb` along unread. -/
theorem exec_withPending (i : Instr) (n : BitIndex) (byte : Byte) (s a : State)
    (hpv : s.pv = false) (hd : decodeSeq s.fsm = .ok i) (he : exec i s = .next a) :
    exec i (withPending n byte s) = .next (withPending n byte a) := by
  have hpv' : (withPending n byte s).pv = false := hpv
  rcases decodeSeq_cases hd with rfl | rfl | rfl
  · simp only [exec, execSeqIdle, hpv, hpv', Host.Outcome.next.injEq] at he ⊢
    subst he
    rfl
  · have hdrop : (withPending n byte s).dropReached = s.dropReached := rfl
    simp only [exec, execSeqHigh, hdrop, Host.Outcome.next.injEq] at he ⊢
    subst he
    split <;> rfl
  · have hmark : (withPending n byte s).markReached = s.markReached := rfl
    have hrem : (withPending n byte s).rem = s.rem := rfl
    simp only [exec, execSeqLow, hpv, hpv', hmark, hrem, Bool.false_eq_true, if_false,
      Host.Outcome.next.injEq] at he ⊢
    subst he
    split_ifs <;> rfl

/-- An accepted command overwrites `pn` and `pb`; where none is accepted the port part leaves
them. -/
theorem afterPort_withPending (n : BitIndex) (byte : Byte) (s a : State) :
    afterPort (withPending n byte s) (withPending n byte a) =
      if s.accepts then afterPort s a else withPending n byte (afterPort s a) := by
  have haccepts : (withPending n byte s).accepts = s.accepts := rfl
  cases hacc : s.accepts <;> simp only [afterPort, haccepts, hacc] <;> rfl

/-- A step without a reset from an empty pending register, with other contents in `pn` and `pb`:
the same step, with those contents where no command is accepted. -/
theorem step_withPending (n : BitIndex) (byte : Byte) (s t : State) (hpv : s.pv = false)
    (hrst : s.input.rst = false) (h : step s = .next t) :
    step (withPending n byte s) = .next (if s.accepts then t else withPending n byte t) := by
  obtain ⟨i, a, hd, he, rfl⟩ := step_seq s t hrst h
  rw [step_of_seq (withPending n byte s) _ i hrst hd (exec_withPending i n byte s a hpv hd he),
    afterPort_withPending]
  split <;> rfl

/-- Settles O52: a reset edge overwrites `pn` and `pb`, and any other edge from `pv = 0` writes
them only by an acceptance, which is also the only way to `pv = 1`. -/
theorem emptyPendingRegisterIsUnread : Obligations.EmptyPendingRegisterIsUnread := by
  intro s t n byte hpv h
  cases hrst : s.input.rst
  case true =>
    rw [step_of_rst s hrst] at h
    cases h
    exact ⟨_, step_of_rst (withPending n byte s) hrst, rfl, rfl, rfl, rfl, rfl, rfl,
      fun _ => ⟨rfl, rfl⟩⟩
  case false =>
    have hpvNext : t.pv = s.accepts := by simp [step_pv s t hrst h, hpv]
    refine ⟨_, step_withPending n byte s t hpv hrst h, ?_⟩
    cases hacc : s.accepts
    case true => simp
    case false => simp [withPending, hpvNext, hacc]

end Sys2Proof.Machine
end

section
/-! PROOFS of the statements about spec/20_memory.md: what is presented and not accepted (R66), and
the pending register as a queue of one command (R64, R69, R70). -/

namespace Sys2Proof.Machine

/-! ### A command that is not accepted (spec/20_memory.md R66) -/

theorem cmdReady_eq_false (s : State) (h : s.pv = true ∨ s.input.rst = true) :
    s.cmdReady = false := by
  rcases h with hpv | hrst
  · simp [State.cmdReady, hpv]
  · simp [State.cmdReady, hrst]

/-- Settles O8: either cause makes `cmd_ready` 0, and a presentation then leaves the state. -/
theorem unreadyCommandLeavesNoTrace : Obligations.UnreadyCommandLeavesNoTrace := by
  intro n byte s h
  have hpresent (m : BitIndex) : present m byte s = s :=
    present_of_not_ready m byte s (cmdReady_eq_false s h)
  exact ⟨congrArg _ (hpresent n), congrArg _ (hpresent 7#3)⟩

/-! ### The pending register as a queue (spec/20_memory.md R64, R69) -/

/-- A step without a reset writes `pn` and `pb` by an acceptance only. -/
theorem step_pn_pb (s t : State) (hrst : s.input.rst = false) (h : step s = .next t) :
    t.pn = (if s.accepts then CmdWord.nField s.input.cmdWord else s.pn) ∧
    t.pb = (if s.accepts then CmdWord.byteField s.input.cmdWord else s.pb) := by
  rcases step_cases s t h with ⟨hr, -⟩ | ⟨-, a, rfl, hcase⟩
  · simp [hrst] at hr
  · have hseq : a.pn = s.pn ∧ a.pb = s.pb := by
      rcases hcase with ⟨-, -, rfl⟩ | ⟨-, -, rfl⟩ | ⟨-, -, rfl⟩ | ⟨-, -, rfl⟩ | ⟨-, -, rfl⟩ |
        ⟨-, -, -, rfl⟩ | ⟨-, -, -, -, rfl⟩ | ⟨-, -, -, -, rfl⟩ <;> exact ⟨rfl, rfl⟩
    obtain ⟨hpn, hpb⟩ := hseq
    rw [nextCycle_pn, nextCycle_pb, afterPort_pn, afterPort_pb, hpn, hpb]
    exact ⟨rfl, rfl⟩

/-- One step without a reset loses no command and makes none: an acceptance fills an empty
register, a take empties a full one, and the two do not meet in one step. -/
theorem step_pending (s t : State) (hrst : s.input.rst = false) (h : step s = .next t) :
    s.pending ++ s.acceptedNow = s.takenNow ++ t.pending := by
  have hpv := step_pv s t hrst h
  obtain ⟨hpn, hpb⟩ := step_pn_pb s t hrst h
  cases hacc : s.accepts
  case true =>
    have hempty := accepts_pv s hacc
    have htakes := takes_eq_false_of_pv s hempty
    simp [State.pending, State.acceptedNow, State.takenNow, hpv, hpn, hpb, hacc, hempty, htakes]
  case false =>
    cases htakes : s.takes
    case true =>
      simp [State.pending, State.acceptedNow, State.takenNow, hpv, hacc, htakes, takes_pv s htakes]
    case false =>
      simp [State.pending, State.acceptedNow, State.takenNow, hpv, hpn, hpb, hacc, htakes]

/-- After a step, the cycles without a reset are one fewer. -/
theorem step_noReset (k : Nat) (s t : State) (h : step s = .next t) (hnr : NoReset s (k + 1)) :
    NoReset t k := by
  intro j hj
  rw [step_inputAt s t h]
  exact hnr (j + 1) (by omega)

/-- A run of `k + 1` cycles is a step and then a run of `k`. -/
theorem cycles_succ_first (k : Nat) (s t : State) (h : cycles (k + 1) s = .next t) :
    ∃ u, step s = .next u ∧ cycles k u = .next t := by
  cases hs : step s with
  | next u => exact ⟨u, rfl, by rwa [cycles_succ_of_step k s u hs] at h⟩
  | fault f => exact nomatch f
  | refused r => simp [cycles, hs] at h

@[simp] theorem logOf_zero (f : State → List Cmd) (s : State) : logOf f 0 s = [] := rfl

theorem logOf_succ (f : State → List Cmd) (k : Nat) (s u : State) (h : step s = .next u) :
    logOf f (k + 1) s = f s ++ logOf f k u := by
  simp [logOf, h]

/-- Settles O48, by induction on the cycles: `step_pending` moves the first step's commands past the
register, and the rest of the run goes on from there. -/
theorem commandsAreTakenInOrder : Obligations.CommandsAreTakenInOrder := by
  intro s t k hnr h
  induction k generalizing s with
  | zero =>
      cases h
      simp
  | succ k ih =>
      obtain ⟨u, hs, hu⟩ := cycles_succ_first k s t h
      have hrun := ih u (step_noReset k s u hs hnr) hu
      have hstep := step_pending s u (hnr 0 (by omega)) hs
      calc s.pending ++ logOf State.acceptedNow (k + 1) s
          = (s.pending ++ s.acceptedNow) ++ logOf State.acceptedNow k u := by
            rw [logOf_succ _ k s u hs, List.append_assoc]
        _ = s.takenNow ++ (u.pending ++ logOf State.acceptedNow k u) := by
            rw [hstep, List.append_assoc]
        _ = (s.takenNow ++ logOf State.takenNow k u) ++ t.pending := by
            rw [hrun, List.append_assoc]
        _ = logOf State.takenNow (k + 1) s ++ t.pending := by
            rw [logOf_succ _ k s u hs]

/-- Settles O49: with `busy = 0` nothing is left pending in the order of O48, and the invariants,
which the run keeps, give the rest. -/
theorem idleMeansEverythingIsSent : Obligations.IdleMeansEverythingIsSent := by
  intro s t k hinv hnr h hquiet
  have hinvNext : Inv t := cycles_induction invariantsAreKept k s t hinv h
  obtain ⟨hidle, hpv⟩ := (busy_eq_false_iff t).1 hquiet
  have hempty : t.pending = [] := by simp [State.pending, hpv]
  have horder := commandsAreTakenInOrder s t k hnr h
  rw [hempty, List.append_nil] at horder
  exact ⟨horder, hidle, hinvNext.idleRem hidle, hinvNext.quietLow hquiet⟩

/-! ### What the sequencer part sees of the inputs (spec/20_memory.md R66, spec/10_state.md R38) -/

/-- The state in another cycle, with another plan of inputs. -/
def withPlan (cycle : Nat) (script : List Inputs) (s : State) : State :=
  { s with cycle := cycle, script := script }

/-- Two states with the same registers and configuration differ by their plan of inputs only. -/
theorem eq_withPlan {s s' : State} (hreg : s.registers = s'.registers) (hinst : s.inst = s'.inst) :
    s' = withPlan s'.cycle s'.script s := by
  cases s
  cases s'
  simp only [State.registers, Registers.mk.injEq] at hreg hinst
  simp [withPlan, hreg, hinst]

theorem startBit_withPlan (cycle : Nat) (script : List Inputs) (v : Byte) (r : BitIndex) (s : State)
    (hcyc : (withPlan cycle script s).cyc = s.cyc) :
    startBit v r (withPlan cycle script s) = withPlan cycle script (startBit v r s) := by
  simp only [startBit, hcyc]
  rfl

theorem takePending_withPlan (cycle : Nat) (script : List Inputs) (s : State)
    (hcyc : (withPlan cycle script s).cyc = s.cyc) :
    takePending (withPlan cycle script s) = withPlan cycle script (takePending s) :=
  congrArg (fun u : State => { u with pv := false })
    (startBit_withPlan cycle script s.pb s.pn s hcyc)

/-- Of the inputs, the sequencer's cases see the counter sample only. -/
theorem exec_withPlan (i : Instr) (cycle : Nat) (script : List Inputs) (s a : State)
    (hcyc : (withPlan cycle script s).cyc = s.cyc) (hd : decodeSeq s.fsm = .ok i)
    (he : exec i s = .next a) :
    exec i (withPlan cycle script s) = .next (withPlan cycle script a) := by
  have htake := takePending_withPlan cycle script s hcyc
  have hpv : (withPlan cycle script s).pv = s.pv := rfl
  rcases decodeSeq_cases hd with rfl | rfl | rfl
  · simp only [exec, execSeqIdle, hpv, htake, Host.Outcome.next.injEq] at he ⊢
    subst he
    split <;> rfl
  · have hdrop : (withPlan cycle script s).dropReached = s.dropReached := by
      simp only [State.dropReached, hcyc]
      rfl
    simp only [exec, execSeqHigh, hdrop, Host.Outcome.next.injEq] at he ⊢
    subst he
    split <;> rfl
  · have hmark : (withPlan cycle script s).markReached = s.markReached := by
      simp only [State.markReached, hcyc]
      rfl
    have hrem : (withPlan cycle script s).rem = s.rem := rfl
    have hsr : (withPlan cycle script s).sr = s.sr := rfl
    have hstart := startBit_withPlan cycle script (shiftLeftOne s.sr) (s.rem - 1#3) s hcyc
    simp only [exec, execSeqLow, hpv, hmark, hrem, hsr, hstart, htake,
      Host.Outcome.next.injEq] at he ⊢
    subst he
    split_ifs <;> rfl

theorem afterPort_of_not_accepts (s a : State) (h : s.accepts = false) : afterPort s a = a := by
  simp [afterPort, h]

/-- Settles O50: a reset edge reads no other input, and at any other edge the port part writes
nothing and the sequencer part sees the same sample. -/
theorem unacceptedPortIsUnseen : Obligations.UnacceptedPortIsUnseen := by
  intro s t s' hreg hinst hrst hcyc hacc hacc' h
  have hs' := eq_withPlan hreg hinst
  generalize s'.cycle = cycle, s'.script = script at hs'
  subst hs'
  cases hr : s.input.rst
  case true =>
    rw [step_of_rst s hr] at h
    cases h
    exact ⟨_, step_of_rst _ (hrst.symm.trans hr), rfl⟩
  case false =>
    obtain ⟨i, a, hd, he, rfl⟩ := step_seq s t hr h
    have he' := exec_withPlan i cycle script s a hcyc.symm hd he
    refine ⟨_, step_of_seq _ _ i (hrst.symm.trans hr) hd he', ?_⟩
    rw [afterPort_of_not_accepts s a hacc, afterPort_of_not_accepts _ _ hacc']
    rfl

end Sys2Proof.Machine
end

section
/-! PROOFS of the statements about spec/30_encoding.md: the command word and the sequencer state as
codes (R80 to R86, R91), and the line code that a receiver samples (R87, R88). -/

namespace Sys2Proof.Machine

/-! ### The fields of a command word (spec/30_encoding.md R80) -/

@[simp] theorem nField_make (n : BitIndex) (byte : Byte) :
    CmdWord.nField (CmdWord.make n byte) = n := BitVec.extractLsb'_append_eq_left

@[simp] theorem byteField_make (n : BitIndex) (byte : Byte) :
    CmdWord.byteField (CmdWord.make n byte) = byte := BitVec.extractLsb'_append_eq_right

/-- The two fields are all of the word. -/
@[simp] theorem make_fields (word : CmdWord) :
    CmdWord.make (CmdWord.nField word) (CmdWord.byteField word) = word :=
  (BitVec.extractLsb'_append_extractLsb'_eq_extractLsb' rfl).trans BitVec.extractLsb'_eq_self

theorem nField_eq_ofNat (word : CmdWord) :
    CmdWord.nField word = BitVec.ofNat 3 (word.toNat / 256) := by
  apply BitVec.eq_of_toNat_eq
  simp [CmdWord.nField, BitVec.extractLsb'_toNat, Nat.shiftRight_eq_div_pow]

theorem byteField_eq_ofNat (word : CmdWord) :
    CmdWord.byteField word = BitVec.ofNat 8 (word.toNat % 256) := by
  apply BitVec.eq_of_toNat_eq
  simp [CmdWord.byteField, BitVec.extractLsb'_toNat]

theorem make_seven_eq_ofNat (byte : Byte) :
    CmdWord.make 7#3 byte = BitVec.ofNat 11 (0x700 + byte.toNat) := by
  apply BitVec.eq_of_toNat_eq
  rw [CmdWord.make, BitVec.toNat_append, ← Nat.shiftLeft_add_eq_or_of_lt byte.isLt]
  simp
  omega

/-! ### Decoding a command word (spec/30_encoding.md R83, R91) -/

theorem decodeCmd_of_seven (word : CmdWord) (h : CmdWord.nField word = 7#3) :
    decodeCmd word = .writebyte (CmdWord.byteField word) := if_pos h

theorem decodeCmd_of_ne_seven (word : CmdWord) (h : CmdWord.nField word ≠ 7#3) :
    decodeCmd word = .writebits (CmdWord.nField word) (CmdWord.byteField word) := if_neg h

/-- Settles O1: a command's word has the command's own fields, and a well-formed WRITEBITS is not
the one that is read as WRITEBYTE. -/
theorem decodeOfEncodeIsTheOperation : Obligations.DecodeOfEncodeIsTheOperation := by
  intro i hwf
  cases i with
  | writebits n byte =>
      have hn : n ≠ 7#3 := by simpa [Instr.wf] using hwf
      simp [decode, encode, decodeCmd_of_ne_seven, hn]
  | writebyte byte => simp [decode, encode, decodeCmd_of_seven]
  | seqIdle => exact decodeSeq_idle
  | seqHigh => exact decodeSeq_high
  | seqLow => exact decodeSeq_low

/-- What a word decodes to is well formed and has that word as its code. -/
theorem encode_decodeCmd (word : CmdWord) :
    encode (decodeCmd word) = .cmd word ∧ (decodeCmd word).wf = true := by
  by_cases hn : CmdWord.nField word = 7#3
  · rw [decodeCmd_of_seven word hn]
    exact ⟨by rw [encode, ← hn, make_fields], rfl⟩
  · rw [decodeCmd_of_ne_seven word hn]
    exact ⟨by rw [encode, make_fields], by simpa [Instr.wf] using hn⟩

/-- The same of a value of `fsm` that decodes. -/
theorem encode_decodeSeq {f : SeqCode} {i : Instr} (h : decodeSeq f = .ok i) :
    encode i = .seq f ∧ i.wf = true := by
  rcases fsm_cases f with rfl | rfl | rfl | rfl
  · cases h
    exact ⟨rfl, rfl⟩
  · cases h
    exact ⟨rfl, rfl⟩
  · cases h
    exact ⟨rfl, rfl⟩
  · cases h

/-- Settles O2: one lemma for each of the two formats. -/
theorem encodeOfDecodeIsTheCode : Obligations.EncodeOfDecodeIsTheCode := by
  intro c i h
  cases c with
  | cmd word =>
      cases h
      exact encode_decodeCmd word
  | seq f => exact encode_decodeSeq h

/-- Settles O3: each conjunct is one word, read off the tables. -/
theorem writtenWordsDecode : Obligations.WrittenWordsDecode := by
  unfold Obligations.WrittenWordsDecode
  decide

/-! ### Every word is a command (spec/30_encoding.md R81, R84) -/

theorem bitCount_mem_range (n : BitIndex) : 1 ≤ bitCount n ∧ bitCount n ≤ 8 := by
  unfold bitCount
  omega

/-- Settles O4: a word presents its two fields, and a ready block loads them. -/
theorem everyWordIsACommand : Obligations.EveryWordIsACommand := by
  intro word s hready
  refine ⟨?_, bitCount_mem_range _⟩
  rw [exec_decodeCmd, present_of_ready _ _ _ hready, nField_eq_ofNat, byteField_eq_ofNat]
  rfl

/-- Settles O7: both operations are the presentation of `7` and the byte, and both have the word
that `make_seven_eq_ofNat` counts. -/
theorem writebyteIsWritebitsEight : Obligations.WritebyteIsWritebitsEight := by
  intro byte
  have hcode := congrArg Code.cmd (make_seven_eq_ofNat byte)
  exact ⟨rfl, fun _ => rfl, hcode, hcode, rfl⟩

/-! ### The reserved state (spec/30_encoding.md R86) -/

/-- Every write of `fsm` is one of the three named values, and a wait happens in one of them. -/
theorem step_fsm_ne_reserved (s t : State) (h : step s = .next t) : t.fsm ≠ Fsm.reserved := by
  rcases step_cases s t h with ⟨-, rfl⟩ | ⟨-, a, rfl, hcase⟩
  · simp
  · rw [nextCycle_fsm, afterPort_fsm]
    rcases hcase with ⟨hf, -, rfl⟩ | ⟨-, -, rfl⟩ | ⟨hf, -, rfl⟩ | ⟨-, -, rfl⟩ | ⟨hf, -, rfl⟩ |
      ⟨-, -, -, rfl⟩ | ⟨-, -, -, -, rfl⟩ | ⟨-, -, -, -, rfl⟩
    · simp [hf]
    · simp
    · simp [hf]
    · simp
    · simp [hf]
    · simp
    · simp
    · simp

/-- Settles O18: the last step of a run does not write the reserved state, reset gives `IDLE`, and
nothing decodes from it. -/
theorem reservedStateIsUnreachable : Obligations.ReservedStateIsUnreachable := by
  refine ⟨fun s t k h => ?_, fun inst script => Fsm_idle_ne_reserved, fun i h => ?_,
    fun s hf hrst => step_of_reserved s hrst hf⟩
  · obtain ⟨u, -, hlast⟩ := cycles_succ_last k s t h
    exact step_fsm_ne_reserved u t hlast
  · cases h

/-! ### Thresholds within one bit (spec/41_sequencer.md R128, R131) -/

/-- Within one bit, a threshold set `d` counts after the start is reached from the count `d` on. -/
theorem reached_addWrap (i : Instance) (c e d : Nat) (he : e ≤ i.cfg.total)
    (hd : d ≤ i.cfg.total) :
    reached i.cfg.w (addWrap i.cfg.w c e) (addWrap i.cfg.w c d) = decide (d ≤ e) := by
  have htotal := i.total_le
  have hpos : 0 < 2 ^ (i.cfg.w - 1) := Nat.two_pow_pos _
  have hrange := two_pow_eq_double i.cfg.w (by have := i.three_le_w; omega)
  rw [reached, subWrap_addWrap, decide_eq_decide]
  by_cases h : d ≤ e
  · rw [subWrap_of_le _ e d h (by omega)]
    omega
  · rw [subWrap_of_lt _ e d (by omega) (by omega)]
    omega

theorem Config.tail_le_total (c : Config) (bit : Bool) : c.tail bit ≤ c.total := by
  cases bit
  · simp [Config.tail, Config.total, Nat.add_assoc]
  · simp [Config.tail, Config.total]

/-- The high part of a bit is at least one cycle long and leaves at least one for the low part. -/
theorem Instance.highFor_bounds (i : Instance) (bit : Bool) :
    1 ≤ Config.highFor i.cfg bit ∧ Config.highFor i.cfg bit < i.cfg.total := by
  obtain ⟨h1, h2, h3⟩ := i.phases_pos
  rw [Config.highFor_eq, Config.total]
  cases bit <;> simp <;> omega

theorem addWrap_zero_sampleAt (s : State) (j : Nat) :
    addWrap s.inst.cfg.w (s.sampleAt j) 0 = s.sampleAt j := Nat.mod_eq_of_lt (sampleAt_lt s j)

/-! ### The nominal environment (spec/70_reset_and_hazards.md R177, R183) -/

/-- Over the next `k` edges there is no reset and the counter counts by one. -/
structure Nominal (s : State) (k : Nat) : Prop where
  noReset : NoReset s k
  countsByOne : CountsByOne s k

theorem Nominal.mono {s : State} {k n : Nat} (h : Nominal s k) (hn : n ≤ k) : Nominal s n :=
  ⟨fun j hj => h.noReset j (by omega), fun j hj => h.countsByOne j (by omega)⟩

/-- What the next edge of the nominal environment samples. -/
theorem Nominal.next {s : State} {k : Nat} (h : Nominal s k) (hk : 1 ≤ k) :
    s.input.rst = false ∧ s.sampleAt 1 = addWrap s.inst.cfg.w s.cyc 1 :=
  ⟨h.noReset 0 hk, h.countsByOne 0 hk⟩

/-- The nominal environment of a longer run is nominal for what is left of it. -/
theorem Nominal.of_cycles {s t : State} {k n : Nat} (h : Nominal s (k + n))
    (hrun : cycles k s = .next t) : Nominal t n := by
  refine ⟨cycles_noReset k n s t hrun h.noReset, fun j hj => ?_⟩
  rw [cycles_sampleAt k s t hrun, cycles_sampleAt k s t hrun,
    (cycles_inst_inputAt k s t hrun).1]
  exact h.countsByOne (k + j) (by omega)

/-- A step after a run of `k` cycles makes a run of `k + 1`. -/
theorem cycles_succ_of_cycles {k : Nat} {s u t : State} (hrun : cycles k s = .next u)
    (hstep : step u = .next t) : cycles (k + 1) s = .next t := by
  rw [cycles_add k 1 s u hrun, cycles_succ_of_step 0 u t hstep, cycles_zero]

/-! ### The steps of one bit (spec/41_sequencer.md R122 to R125, R129) -/

theorem step_of_high (s : State) (hrst : s.input.rst = false) (hfsm : s.fsm = Fsm.high) :
    step s = .next (nextCycle (afterPort s (if s.dropReached then dropPin s else s))) :=
  step_of_seq s _ .seqHigh hrst (hfsm ▸ decodeSeq_high) rfl

theorem step_of_low_wait (s : State) (hrst : s.input.rst = false) (hfsm : s.fsm = Fsm.low)
    (hmark : s.markReached = false) : step s = .next (nextCycle (afterPort s s)) :=
  step_of_seq s s .seqLow hrst (hfsm ▸ decodeSeq_low) (by simp [exec, execSeqLow, hmark])

theorem step_of_low_nextBit (s : State) (hrst : s.input.rst = false) (hfsm : s.fsm = Fsm.low)
    (hmark : s.markReached = true) (hrem : s.rem ≠ 0#3) :
    step s = .next (nextCycle (afterPort s (startBit (shiftLeftOne s.sr) (s.rem - 1#3) s))) :=
  step_of_seq s _ .seqLow hrst (hfsm ▸ decodeSeq_low) (by simp [exec, execSeqLow, hmark, hrem])

theorem step_of_takes (s : State) (hrst : s.input.rst = false) (htakes : s.takes = true) :
    step s = .next (nextCycle (afterPort s (takePending s))) := by
  obtain ⟨hpv, hfsm | ⟨hfsm, hrem, hmark⟩⟩ := (takes_iff s).1 htakes
  · exact step_of_seq s _ .seqIdle hrst (hfsm ▸ decodeSeq_idle) (by simp [exec, execSeqIdle, hpv])
  · exact step_of_seq s _ .seqLow hrst (hfsm ▸ decodeSeq_low)
      (by simp [exec, execSeqLow, hmark, hrem, hpv])

/-! ### One bit in the nominal environment (spec/30_encoding.md R87) -/

/-- `t` is in the `j`-th cycle, counted from 1, of a bit that was started at the sample `c` with
`v` in the shift register and `r` bits of its command to come after it. -/
structure InBit (c : Nat) (v : Byte) (r j : Nat) (t : State) : Prop where
  sr : t.sr = v
  rem : t.rem.toNat = r
  mark : t.mark = addWrap t.inst.cfg.w c t.inst.cfg.total
  cyc : t.cyc = addWrap t.inst.cfg.w c j
  fsm : t.fsm = if j ≤ Config.highFor t.inst.cfg v.msb then Fsm.high else Fsm.low
  pin : t.pin = decide (j ≤ Config.highFor t.inst.cfg v.msb)

section
variable {c : Nat} {v : Byte} {r j : Nat} {s : State}

theorem InBit.dropPoint_eq (h : InBit c v r j s) :
    s.dropPoint = addWrap s.inst.cfg.w c (Config.highFor s.inst.cfg v.msb) := by
  rw [State.dropPoint, State.currentBit, h.mark, h.sr,
    subWrap_addWrap_back _ _ _ _ (Config.tail_le_total _ _), Config.highFor]

theorem InBit.dropReached_eq (h : InBit c v r j s) (hj : j ≤ s.inst.cfg.total) :
    s.dropReached = decide (Config.highFor s.inst.cfg v.msb ≤ j) := by
  rw [State.dropReached, h.cyc, h.dropPoint_eq,
    reached_addWrap _ _ _ _ hj (s.inst.highFor_bounds v.msb).2.le]

theorem InBit.markReached_eq (h : InBit c v r j s) (hj : j ≤ s.inst.cfg.total) :
    s.markReached = decide (s.inst.cfg.total ≤ j) := by
  rw [State.markReached, h.cyc, h.mark, reached_addWrap _ _ _ _ hj le_rfl]

/-- A take enters the first cycle of the pending command's first bit. -/
theorem exists_inBit_of_takes (htakes : s.takes = true) (hn : Nominal s 1) :
    ∃ t, step s = .next t ∧ InBit s.cyc s.pb s.pn.toNat 1 t := by
  obtain ⟨hrst, hnext⟩ := hn.next le_rfl
  have hhigh := (s.inst.highFor_bounds s.pb.msb).1
  refine ⟨_, step_of_takes s hrst htakes, ?_⟩
  constructor <;> simp [hnext, hhigh]

/-- One cycle further in a bit: the pin drops after the last cycle of the high part, and every
other step waits. -/
theorem InBit.step (h : InBit c v r j s) (hj : j < s.inst.cfg.total) (hn : Nominal s 1) :
    ∃ t, Machine.step s = .next t ∧ InBit c v r (j + 1) t := by
  obtain ⟨hrst, hnext⟩ := hn.next le_rfl
  have hcyc : s.sampleAt 1 = addWrap s.inst.cfg.w c (j + 1) := by
    rw [hnext, h.cyc, addWrap_addWrap]
  have hfsm := h.fsm
  have hdrop := h.dropReached_eq hj.le
  rcases Nat.lt_trichotomy j (Config.highFor s.inst.cfg v.msb) with hlt | heq | hgt
  · rw [if_pos hlt.le] at hfsm
    rw [decide_eq_false hlt.not_ge] at hdrop
    refine ⟨_, step_of_high s hrst hfsm, ?_⟩
    have hstays := Nat.succ_le_of_lt hlt
    constructor <;> simp [hdrop, h.sr, h.rem, h.mark, h.pin, hcyc, hfsm, hlt.le, hstays]
  · rw [if_pos heq.le] at hfsm
    rw [decide_eq_true heq.ge] at hdrop
    refine ⟨_, step_of_high s hrst hfsm, ?_⟩
    constructor <;> simp [hdrop, h.sr, h.rem, h.mark, hcyc, ← heq]
  · rw [if_neg hgt.not_ge] at hfsm
    have hmark : s.markReached = false := by rw [h.markReached_eq hj.le, decide_eq_false hj.not_ge]
    have hlow : ¬j + 1 ≤ Config.highFor s.inst.cfg v.msb := by omega
    refine ⟨_, step_of_low_wait s hrst hfsm hmark, ?_⟩
    constructor <;> simp [h.sr, h.rem, h.mark, h.pin, hcyc, hfsm, hgt.not_ge, hlow]

/-- In its last cycle a bit that is not the last of its command is followed by the next one, whose
start is the count at which this one ends. -/
theorem InBit.step_nextBit (h : InBit c v (r + 1) s.inst.cfg.total s) (hn : Nominal s 1) :
    ∃ t, Machine.step s = .next t ∧
      InBit (addWrap s.inst.cfg.w c s.inst.cfg.total) (shiftLeftOne v) r 1 t := by
  obtain ⟨hrst, hnext⟩ := hn.next le_rfl
  have hhigh := (s.inst.highFor_bounds (shiftLeftOne v).msb).1
  have hfsm : s.fsm = Fsm.low := by
    rw [h.fsm, if_neg (s.inst.highFor_bounds v.msb).2.not_ge]
  have hmark : s.markReached = true := by rw [h.markReached_eq le_rfl, decide_eq_true le_rfl]
  have hrem := h.rem
  have hne : s.rem ≠ 0#3 := by bv_omega
  have hpred : (s.rem - 1#3).toNat = r := by bv_omega
  refine ⟨_, step_of_low_nextBit s hrst hfsm hmark hne, ?_⟩
  constructor <;> simp [hnext, h.sr, h.cyc, hpred, hhigh]

/-- A bit goes on, cycle by cycle, up to its last. -/
theorem InBit.cycles (h : InBit c v r j s) (n : Nat) (hj : j + n ≤ s.inst.cfg.total)
    (hn : Nominal s n) : ∃ t, Machine.cycles n s = .next t ∧ InBit c v r (j + n) t := by
  induction n with
  | zero => exact ⟨s, rfl, h⟩
  | succ n ih =>
      obtain ⟨u, hrun, hu⟩ := ih (by omega) (hn.mono (by omega))
      have hinst := (cycles_inst_inputAt n s u hrun).1
      obtain ⟨t, hstep, ht⟩ := hu.step (by rw [hinst]; omega) (hn.of_cycles hrun)
      exact ⟨t, cycles_succ_of_cycles hrun hstep, ht⟩

/-- From the first cycle of a bit to the first cycle of the next are `TOTAL` cycles. -/
theorem InBit.cycles_nextBit (h : InBit c v (r + 1) 1 s) (hn : Nominal s s.inst.cfg.total) :
    ∃ t, Machine.cycles s.inst.cfg.total s = .next t ∧
      InBit (addWrap s.inst.cfg.w c s.inst.cfg.total) (shiftLeftOne v) r 1 t := by
  obtain ⟨k, hk⟩ : ∃ k, s.inst.cfg.total = k + 1 :=
    Nat.exists_eq_add_one.2 ((Nat.zero_le _).trans_lt (s.inst.highFor_bounds v.msb).2)
  rw [hk] at hn
  obtain ⟨u, hrun, hu⟩ := h.cycles k (by omega) (hn.mono (by omega))
  have hinst := (cycles_inst_inputAt k s u hrun).1
  have hlast : 1 + k = u.inst.cfg.total := by rw [hinst]; omega
  rw [hlast] at hu
  obtain ⟨t, hstep, ht⟩ := hu.step_nextBit (hn.of_cycles hrun)
  rw [hinst] at ht
  exact ⟨t, hk ▸ cycles_succ_of_cycles hrun hstep, ht⟩

end

/-! ### The bits of a command (spec/40_writebits.md R103) -/

/-- The first cycle of the `i`-th bit of a command that is taken in this cycle. -/
theorem exists_firstCycle_of_takes (s : State) (htakes : s.takes = true) (i : Nat)
    (hi : i ≤ s.pn.toNat) (hn : Nominal s (i * s.inst.cfg.total + 1)) :
    ∃ t, cycles (i * s.inst.cfg.total + 1) s = .next t ∧
      InBit (addWrap s.inst.cfg.w s.cyc (i * s.inst.cfg.total)) (s.pb <<< i) (s.pn.toNat - i) 1
        t := by
  induction i with
  | zero =>
      obtain ⟨t, hstep, ht⟩ := exists_inBit_of_takes htakes (hn.mono (by omega))
      refine ⟨t, cycles_succ_of_cycles (by simp) hstep, ?_⟩
      simpa [State.cyc, addWrap_zero_sampleAt] using ht
  | succ i ih =>
      rw [Nat.succ_mul, Nat.add_right_comm] at hn ⊢
      obtain ⟨u, hrun, hu⟩ := ih (by omega) (hn.mono (by omega))
      have hinst := (cycles_inst_inputAt _ s u hrun).1
      rw [show s.pn.toNat - i = s.pn.toNat - (i + 1) + 1 by omega] at hu
      obtain ⟨t, hrun', ht⟩ := hu.cycles_nextBit (by rw [hinst]; exact hn.of_cycles hrun)
      rw [hinst] at hrun' ht
      refine ⟨t, by rw [cycles_add _ _ s u hrun, hrun'], ?_⟩
      rwa [addWrap_addWrap, shiftLeftOne, ← BitVec.shiftLeft_add] at ht

/-- The `j`-th cycle of the `i`-th bit of a command that is taken in this cycle. -/
theorem exists_inBit_of_command (s : State) (htakes : s.takes = true) (i j : Nat)
    (hi : i < bitCount s.pn) (hj : 1 ≤ j) (hjt : j ≤ s.inst.cfg.total)
    (hn : Nominal s (bitCount s.pn * s.inst.cfg.total)) :
    ∃ t, cycles (i * s.inst.cfg.total + j) s = .next t ∧
      InBit (addWrap s.inst.cfg.w s.cyc (i * s.inst.cfg.total)) (s.pb <<< i) (s.pn.toNat - i) j
        t := by
  have hle : (i + 1) * s.inst.cfg.total ≤ bitCount s.pn * s.inst.cfg.total :=
    Nat.mul_le_mul_right _ hi
  rw [Nat.succ_mul] at hle
  obtain ⟨n, rfl⟩ : ∃ n, j = 1 + n := Nat.exists_eq_add_of_le hj
  obtain ⟨u, hrun, hu⟩ := exists_firstCycle_of_takes s htakes i (Nat.le_of_lt_succ hi)
    (hn.mono (by omega))
  have hinst := (cycles_inst_inputAt _ s u hrun).1
  rw [← Nat.add_assoc]
  have hrest : Nominal s (i * s.inst.cfg.total + 1 + n) := hn.mono (by omega)
  obtain ⟨t, hrun', ht⟩ := hu.cycles n (by rwa [hinst]) (hrest.of_cycles hrun)
  exact ⟨t, by rw [cycles_add _ _ s u hrun, hrun'], ht⟩

/-! ### What a receiver samples (spec/30_encoding.md R88) -/

theorem pinAfter_of_cycles {k : Nat} {s t : State} (h : cycles k s = .next t) :
    pinAfter k s = some t.pin := by
  simp [pinAfter, h, State.pinOut]

/-- The `i`-th bit of a command is the top bit of its byte shifted `i` times. -/
theorem msb_shiftLeft_eq_sentBit (byte : Byte) (i : Nat) (hi : i < 8) :
    (byte <<< i).msb = sentBit byte i := by
  simp [BitVec.msb_shiftLeft, BitVec.getMsbD_eq_getLsbD, sentBit, hi]

/-- After `T1` and up to `T1 + T2` cycles the pin is still high for a 1 and low already for a 0. -/
theorem Config.sample_eq_bit (c : Config) (d : Nat) (bit : Bool) (hd : c.t1 ≤ d)
    (hd' : d < c.t1 + c.t2) : decide (1 + d ≤ Config.highFor c bit) = bit := by
  rw [Config.highFor_eq]
  cases bit <;> simp <;> omega

/-- Settles O38: the sample is the pin in the cycle `1 + d` of the bit's symbol. -/
theorem sampledWaveformDecodes : Obligations.SampledWaveformDecodes := by
  intro s d htakes hnr hcount hd hd'
  refine List.map_congr_left fun i hi => ?_
  have hbit : i < bitCount s.pn := List.mem_range.1 hi
  have hd'' : 1 + d ≤ s.inst.cfg.total := by
    simp only [Config.total]
    omega
  obtain ⟨t, hrun, ht⟩ :=
    exists_inBit_of_command s htakes i (1 + d) hbit (by omega) hd'' ⟨hnr, hcount⟩
  have hinst := (cycles_inst_inputAt _ s t hrun).1
  have hi8 : i < 8 := hbit.trans_le (bitCount_mem_range s.pn).2
  rw [Nat.add_assoc, pinAfter_of_cycles hrun, ht.pin, hinst, Config.sample_eq_bit _ d _ hd hd',
    msb_shiftLeft_eq_sentBit _ _ hi8]

end Sys2Proof.Machine
end

section
/-! PROOFS of the statements about spec/40_writebits.md: acceptance (R101), the take (R102), the
waveform of a command (R103), and what it leaves behind (R105). -/

namespace Sys2Proof.Machine

/-! ### Acceptance (spec/40_writebits.md R101) -/

/-- Settles O5: a ready block loads what WRITEBITS presents. -/
theorem writebitsIsAccepted : Obligations.WritebitsIsAccepted := by
  intro n byte s hpv hrst
  exact congrArg _ (present_of_ready n byte s ((cmdReady_iff s).2 ⟨hpv, hrst⟩))

/-- Settles O6: WRITEBYTE is the presentation of O5 with `n = 7`. -/
theorem writebyteIsAccepted : Obligations.WritebyteIsAccepted :=
  fun byte s hpv hrst => writebitsIsAccepted 7#3 byte s hpv hrst

/-- Settles O23: what a step writes in `pv`, `pn` and `pb` is said by `accepts` and `takes`, and the
two exclude each other by `pv`. -/
theorem acceptanceAtAnEdge : Obligations.AcceptanceAtAnEdge := by
  intro s t hrst h
  have hpv := step_pv s t hrst h
  obtain ⟨hpn, hpb⟩ := step_pn_pb s t hrst h
  refine ⟨fun hvalid hempty => ?accepted, fun hnot => ?otherwise⟩
  case accepted =>
    have hacc : s.accepts = true := (accepts_iff s hrst).2 ⟨hvalid, hempty⟩
    rw [hacc] at hpv hpn hpb
    exact ⟨hpv, hpn, hpb, takes_eq_false_of_pv s hempty⟩
  case otherwise =>
    have hacc : s.accepts = false := Bool.eq_false_iff.2 (hnot ∘ (accepts_iff s hrst).1)
    rw [hacc] at hpv hpn hpb
    exact ⟨hpn, hpb, fun htakes => by simp [hpv, htakes], fun htakes => by simp [hpv, htakes]⟩

/-! ### The take (spec/40_writebits.md R102) -/

/-- A full pending register is emptied by a take and by nothing else. -/
theorem step_pv_eq_false_iff_takes (s t : State) (hrst : s.input.rst = false)
    (h : step s = .next t) (hfull : s.pv = true) : t.pv = false ↔ s.takes = true := by
  have hacc : s.accepts = false := by simp [State.accepts, State.cmdReady, hfull]
  simp [step_pv s t hrst h, hacc, hfull]

/-- Settles O24: `pv` falls by a take alone, and a step that takes is `takePending`, beside which
the port part finds the register full. -/
theorem takeOfThePendingCommand : Obligations.TakeOfThePendingCommand := by
  intro s t hrst h
  have hfall := step_pv_eq_false_iff_takes s t hrst h
  refine ⟨?falls_iff, fun hfull hempty => ?taken⟩
  case falls_iff =>
    calc s.pv = true ∧ t.pv = false
        ↔ s.pv = true ∧ s.takes = true := and_congr_right hfall
      _ ↔ s.takes = true := and_iff_right_of_imp (takes_pv s)
      _ ↔ _ := takes_iff s
  case taken =>
    have hready : t.input.rst = false → t.cmdReady = true :=
      fun hrst' => (cmdReady_iff t).2 ⟨hempty, hrst'⟩
    rw [step_of_takes s hrst ((hfall hfull).1 hempty)] at h
    cases h
    refine ⟨?_, ?_, ?_, ?_, ?_, hready⟩ <;> simp [addWrap]

/-! ### The waveform (spec/40_writebits.md R103) -/

/-- Settles O37: the cycle is the `j`-th of the `i`-th bit's symbol, whose count and pin `InBit`
gives. -/
theorem commandWaveform : Obligations.CommandWaveform := by
  intro s htakes hnr hcount i j hi hj hjt
  obtain ⟨t, hrun, ht⟩ := exists_inBit_of_command s htakes i j hi hj hjt ⟨hnr, hcount⟩
  have hinst := (cycles_inst_inputAt _ s t hrun).1
  have hi8 : i < 8 := hi.trans_le (bitCount_mem_range s.pn).2
  refine ⟨t, hrun, ?_, ?_⟩
  · rw [ht.cyc, hinst, addWrap_addWrap, addWrap]
  · rw [ht.pin, hinst, msb_shiftLeft_eq_sentBit _ _ hi8, decide_eq_true_iff, Config.highFor,
      sentBit]

/-! ### What a command leaves behind (spec/40_writebits.md R105) -/

theorem InBit.busy {c : Nat} {v : Byte} {r j : Nat} {s : State} (h : InBit c v r j s) :
    s.busy = true := by
  rw [busy_iff, h.fsm]
  left
  split <;> simp

theorem accepts_eq_false_of_cmdValid (s : State) (h : s.input.cmdValid = false) :
    s.accepts = false := by
  simp [State.accepts, h]

/-- Where nothing is presented, the pending register stays empty from a take on. -/
theorem cycles_pv_of_noCommand (s : State) (htakes : s.takes = true) (k : Nat)
    (hnr : NoReset s (k + 1)) (hnc : NoCommand s (k + 1)) (t : State)
    (hrun : cycles (k + 1) s = .next t) : t.pv = false := by
  obtain ⟨u, hu, hlast⟩ := cycles_succ_last k s t hrun
  have hinput : u.input = s.inputAt k := (cycles_inst_inputAt k s u hu).2 0
  have hrst : u.input.rst = false := hinput ▸ hnr k k.lt_succ_self
  have hacc : u.accepts = false :=
    accepts_eq_false_of_cmdValid u (hinput ▸ hnc k k.lt_succ_self)
  rw [step_pv u t hrst hlast, hacc]
  cases k with
  | zero =>
      cases hu
      simp [htakes]
  | succ k =>
      have hempty := cycles_pv_of_noCommand s htakes k (fun j hj => hnr j (by omega))
        (fun j hj => hnc j (by omega)) u hu
      simp [hempty]

theorem step_of_low_goIdle (s : State) (hrst : s.input.rst = false) (hfsm : s.fsm = Fsm.low)
    (hmark : s.markReached = true) (hrem : s.rem = 0#3) (hpv : s.pv = false) :
    step s = .next (nextCycle (afterPort s (goIdle s))) :=
  step_of_seq s _ .seqLow hrst (hfsm ▸ decodeSeq_low)
    (by simp [exec, execSeqLow, hmark, hrem, hpv])

/-- After the last bit of a command with nothing pending and nothing presented, the step is the last
shift and the way to `IDLE`. -/
theorem InBit.step_goIdle {c : Nat} {v : Byte} {s : State} (h : InBit c v 0 s.inst.cfg.total s)
    (hrst : s.input.rst = false) (hpv : s.pv = false) (hvalid : s.input.cmdValid = false) :
    Machine.step s = .next (nextCycle (goIdle s)) := by
  have hfsm : s.fsm = Fsm.low := by
    rw [h.fsm, if_neg (s.inst.highFor_bounds v.msb).2.not_ge]
  have hmark : s.markReached = true := by rw [h.markReached_eq le_rfl, decide_eq_true le_rfl]
  have hrem : s.rem = 0#3 := BitVec.eq_of_toNat_eq h.rem
  rw [step_of_low_goIdle s hrst hfsm hmark hrem hpv,
    afterPort_of_not_accepts s _ (accepts_eq_false_of_cmdValid s hvalid)]

/-- Every cycle of a command is the `j`-th of its `i`-th symbol, for some `i` and `j`. -/
theorem exists_symbol_of_cycle (k total m : Nat) (hm : 1 ≤ m) (hmk : m ≤ k * total) :
    ∃ i j, i < k ∧ 1 ≤ j ∧ j ≤ total ∧ i * total + j = m := by
  have htotal : 0 < total := Nat.pos_of_mul_pos_left (hm.trans hmk)
  have hlt : m - 1 < total * k := by rw [Nat.mul_comm]; omega
  have hsplit := Nat.div_add_mod' (m - 1) total
  exact ⟨(m - 1) / total, (m - 1) % total + 1, Nat.div_lt_of_lt_mul hlt, by omega,
    Nat.mod_lt _ htotal, by omega⟩

/-- The shifts between the bits of a command and the last one make up a shift by its bit count. -/
theorem shiftLeftOne_shiftLeft (byte : Byte) (n : Nat) :
    shiftLeftOne (byte <<< n) = BitVec.ofNat 8 (byte.toNat * 2 ^ (n + 1)) := by
  rw [shiftLeftOne, ← BitVec.shiftLeft_add]
  apply BitVec.eq_of_toNat_eq
  simp [Nat.shiftLeft_eq]

theorem Instance.one_le_total (i : Instance) : 1 ≤ i.cfg.total :=
  (Nat.zero_le _).trans_lt (i.highFor_bounds true).2

/-- The last cycle of a command during which nothing is presented: the end of its last bit, with
nothing pending. -/
theorem exists_lastCycle_of_command (s : State) (htakes : s.takes = true)
    (hn : Nominal s (bitCount s.pn * s.inst.cfg.total))
    (hnc : NoCommand s (bitCount s.pn * s.inst.cfg.total)) :
    ∃ u, cycles (bitCount s.pn * s.inst.cfg.total) s = .next u ∧ u.pv = false ∧
      InBit (addWrap s.inst.cfg.w s.cyc (s.pn.toNat * s.inst.cfg.total)) (s.pb <<< s.pn.toNat) 0
        s.inst.cfg.total u := by
  have htotal := s.inst.one_le_total
  obtain ⟨u, hrun, hu⟩ := exists_inBit_of_command s htakes s.pn.toNat s.inst.cfg.total
    (Nat.lt_succ_self _) htotal le_rfl hn
  rw [← Nat.succ_mul] at hrun
  rw [Nat.sub_self] at hu
  obtain ⟨k, hk⟩ : ∃ k, bitCount s.pn * s.inst.cfg.total = k + 1 :=
    Nat.exists_eq_add_one.2 (Nat.mul_pos (bitCount_mem_range s.pn).1 htotal)
  refine ⟨u, hrun, ?_, hu⟩
  rw [hk] at hn hnc
  exact cycles_pv_of_noCommand s htakes k hn.noReset hnc u (hk ▸ hrun)

/-- Settles O39: every cycle of the command is in one of its bits, and the step after the last one
finds nothing pending and nothing presented. -/
theorem commandEndsIdle : Obligations.CommandEndsIdle := by
  intro s htakes hnr hnc hcount
  have hn : Nominal s (bitCount s.pn * s.inst.cfg.total) :=
    ⟨fun j hj => hnr j (by omega), hcount⟩
  refine ⟨fun m hm hmk => ?busy, ?ends⟩
  case busy =>
    obtain ⟨i, j, hi, hj, hjt, rfl⟩ := exists_symbol_of_cycle _ _ m hm hmk
    obtain ⟨t, hrun, ht⟩ := exists_inBit_of_command s htakes i j hi hj hjt hn
    exact ⟨t, hrun, ht.busy⟩
  case ends =>
    obtain ⟨u, hrun, hpv, hu⟩ :=
      exists_lastCycle_of_command s htakes hn (fun j hj => hnc j (by omega))
    obtain ⟨hinst, hinputs⟩ := cycles_inst_inputAt _ s u hrun
    have hinput : u.input = s.inputAt (bitCount s.pn * s.inst.cfg.total) := hinputs 0
    rw [← hinst] at hu
    have hstep := hu.step_goIdle (hinput ▸ hnr _ (Nat.lt_succ_self _)) hpv
      (hinput ▸ hnc _ (Nat.lt_succ_self _))
    have hidle : (nextCycle (goIdle u)).fsm = Fsm.idle := rfl
    refine ⟨_, cycles_succ_of_cycles hrun hstep, hidle, rfl, BitVec.eq_of_toNat_eq hu.rem, hpv,
      (busy_eq_false_iff _).2 ⟨hidle, hpv⟩, ?sr, ?mark⟩
    case sr => rw [nextCycle_sr, goIdle_sr, hu.sr, shiftLeftOne_shiftLeft, bitCount]
    case mark =>
      rw [nextCycle_mark, goIdle_mark, hu.mark, addWrap_addWrap, hinst, ← Nat.succ_mul]
      rfl

end Sys2Proof.Machine
end

section
/-! PROOFS of the statements about spec/41_sequencer.md: the sequencer's cases (R121 to R126), the
step (R120, R130), the thresholds (R128, R134), the start from idle (R137), the timing of a bit
(R132) and of two commands (R136), and the bits sent by a counter that may pause (R133). -/

namespace Sys2Proof.Machine

/-! ### The sequencer's cases (spec/41_sequencer.md R121 to R126) -/

theorem exec_seqIdle_of_empty (s : State) (hpv : s.pv = false) : exec .seqIdle s = .next s := by
  simp [exec, execSeqIdle, hpv]

theorem exec_seqIdle_of_full (s : State) (hpv : s.pv = true) :
    exec .seqIdle s = .next (takePending s) := by
  simp [exec, execSeqIdle, hpv]

theorem exec_seqHigh_of_reached (s : State) (hdrop : s.dropReached = true) :
    exec .seqHigh s = .next (dropPin s) := by
  simp [exec, execSeqHigh, hdrop]

theorem exec_seqHigh_of_not_reached (s : State) (hdrop : s.dropReached = false) :
    exec .seqHigh s = .next s := by
  simp [exec, execSeqHigh, hdrop]

theorem exec_seqLow_of_not_reached (s : State) (hmark : s.markReached = false) :
    exec .seqLow s = .next s := by
  simp [exec, execSeqLow, hmark]

theorem exec_seqLow_nextBit (s : State) (hmark : s.markReached = true) (hrem : s.rem ≠ 0#3) :
    exec .seqLow s = .next (startBit (shiftLeftOne s.sr) (s.rem - 1#3) s) := by
  simp [exec, execSeqLow, hmark, hrem]

theorem exec_seqLow_takes (s : State) (hmark : s.markReached = true) (hrem : s.rem = 0#3)
    (hpv : s.pv = true) : exec .seqLow s = .next (takePending s) := by
  simp [exec, execSeqLow, hmark, hrem, hpv]

theorem exec_seqLow_goIdle (s : State) (hmark : s.markReached = true) (hrem : s.rem = 0#3)
    (hpv : s.pv = false) : exec .seqLow s = .next (goIdle s) := by
  simp [exec, execSeqLow, hmark, hrem, hpv]

/-- The shift of R17 as a doubling. -/
theorem shiftLeftOne_eq_ofNat (v : Byte) : shiftLeftOne v = BitVec.ofNat 8 (2 * v.toNat) := by
  apply BitVec.eq_of_toNat_eq
  simp [shiftLeftOne, Nat.shiftLeft_eq, Nat.mul_comm]

theorem sub_one_eq_ofNat (r : BitIndex) (hr : 0 < r.toNat) :
    r - 1#3 = BitVec.ofNat 3 (r.toNat - 1) := by
  bv_omega

/-- Settles O9: with nothing pending SEQ.IDLE is the wait of R121. -/
theorem seqIdleWithNothingPending : Obligations.SeqIdleWithNothingPending :=
  exec_seqIdle_of_empty

/-- Settles O10: the written-out state is `takePending`. -/
theorem seqIdleTakes : Obligations.SeqIdleTakes :=
  exec_seqIdle_of_full

/-- Settles O11: the two sides of the drop point are the two cases of SEQ.HIGH. -/
theorem seqHighDropsOrWaits : Obligations.SeqHighDropsOrWaits :=
  fun s => ⟨exec_seqHigh_of_reached s, exec_seqHigh_of_not_reached s⟩

/-- Settles O12: before the mark SEQ.LOW is the wait of R129, and reads neither `rem` nor `pv`. -/
theorem seqLowWaits : Obligations.SeqLowWaits :=
  exec_seqLow_of_not_reached

/-- Settles O13: the written-out state is `startBit`, with the shift and the decrement as numbers. -/
theorem seqLowStartsNextBit : Obligations.SeqLowStartsNextBit := by
  intro s hmark hrem
  have hne : s.rem ≠ 0#3 := by bv_omega
  rw [exec_seqLow_nextBit s hmark hne, shiftLeftOne_eq_ofNat, sub_one_eq_ofNat _ hrem]
  rfl

/-- Settles O14: the written-out state is `takePending`. -/
theorem seqLowChains : Obligations.SeqLowChains :=
  exec_seqLow_takes

/-- Settles O15: the written-out state is `goIdle`, with the shift as a number. -/
theorem seqLowGoesIdle : Obligations.SeqLowGoesIdle := by
  intro s hmark hrem hpv
  rw [exec_seqLow_goIdle s hmark hrem hpv, goIdle, shiftLeftOne_eq_ofNat]

/-! ### The step (spec/41_sequencer.md R120, R130) -/

/-- The sequencer's cases answer a next state always. -/
theorem exists_exec_of_decodeSeq {f : SeqCode} {i : Instr} (h : decodeSeq f = .ok i) (s : State) :
    ∃ a, exec i s = .next a := by
  rcases decodeSeq_cases h with rfl | rfl | rfl
  · exact ⟨_, rfl⟩
  · exact ⟨_, rfl⟩
  · exact ⟨_, rfl⟩

/-- Settles O16: the sequencer part is the selected operation; where a transfer happens, the port
part is the word's command, which loads its two fields. -/
theorem stepRunsTheSelectedOperations : Obligations.StepRunsTheSelectedOperations := by
  intro s i hrst hd
  obtain ⟨-, hwf⟩ := encode_decodeSeq hd
  obtain ⟨a, he⟩ := exists_exec_of_decodeSeq hd s
  have hstep := step_of_seq s a i hrst hd he
  refine ⟨hwf, a, he, fun hnot => ?quiet, fun hboth => ?transfer⟩
  case quiet =>
    have hacc : s.accepts = false := Bool.eq_false_iff.2 (hnot ∘ (accepts_iff s hrst).1)
    rw [hstep, afterPort_of_not_accepts s a hacc]
  case transfer =>
    have hacc : s.accepts = true := (accepts_iff s hrst).2 hboth
    have hready : s.cmdReady = true := (cmdReady_iff s).2 ⟨hboth.2, hrst⟩
    refine ⟨decodeCmd s.input.cmdWord, _, rfl, (encode_decodeCmd _).2, exec_decodeCmd _ s, ?_⟩
    rw [hstep, afterPort, if_pos hacc, present_of_ready _ _ s hready, joinPending]

theorem exists_step_of_ne_reserved (s : State) (hfsm : s.fsm ≠ Fsm.reserved) :
    ∃ t, step s = .next t := by
  cases hrst : s.input.rst
  case true => exact ⟨_, step_of_rst s hrst⟩
  case false =>
    rcases fsm_cases s.fsm with hf | hf | hf | hf
    · exact ⟨_, step_of_seq s _ .seqIdle hrst (hf ▸ decodeSeq_idle) rfl⟩
    · exact ⟨_, step_of_seq s _ .seqHigh hrst (hf ▸ decodeSeq_high) rfl⟩
    · exact ⟨_, step_of_seq s _ .seqLow hrst (hf ▸ decodeSeq_low) rfl⟩
    · exact absurd hf hfsm

/-- Settles O17: the reserved state without a reset is the one case that is refused. -/
theorem stepIsTotal : Obligations.StepIsTotal := by
  intro s
  refine ⟨⟨fun ⟨t, h⟩ => ?_, fun h => ?_⟩, step_of_reserved s⟩
  · by_contra hnot
    obtain ⟨hrst, hfsm⟩ := not_or.1 hnot
    rw [step_of_reserved s (Bool.eq_false_iff.2 hrst) (not_not.1 hfsm)] at h
    cases h
  · rcases h with hrst | hfsm
    · exact ⟨_, step_of_rst s hrst⟩
    · exact exists_step_of_ne_reserved s hfsm

theorem step_of_idle_wait (s : State) (hrst : s.input.rst = false) (hfsm : s.fsm = Fsm.idle)
    (hpv : s.pv = false) : step s = .next (nextCycle (afterPort s s)) :=
  step_of_seq s s .seqIdle hrst (hfsm ▸ decodeSeq_idle) (exec_seqIdle_of_empty s hpv)

/-- The port part leaves `fsm` as the sequencer part has it. -/
theorem step_fsm (s t a : State) (h : step s = .next t)
    (ha : step s = .next (nextCycle (afterPort s a))) : t.fsm = a.fsm := by
  rw [h] at ha
  cases ha
  simp

/-- Settles O21: each row of the table is one case of the step. -/
theorem sequencerTransitions : Obligations.SequencerTransitions := by
  intro s t h
  refine ⟨fun hrst => ?reset, fun hrst => ⟨fun hf hpv => ?idleIdle, fun hf hpv => ?idleHigh,
    fun hf hdrop => ?highHigh, fun hf hdrop => ?highLow, fun hf hmark => ?lowLow,
    fun hf hmark hmore => ?lowHigh, fun hf hmark hrem hpv => ?lowIdle⟩⟩
  case reset =>
    rw [step_of_rst s hrst] at h
    cases h
    rfl
  case idleIdle => rw [step_fsm s t s h (step_of_idle_wait s hrst hf hpv), hf]
  case idleHigh =>
    exact step_fsm s t _ h (step_of_takes s hrst ((takes_iff s).2 ⟨hpv, .inl hf⟩))
  case highHigh =>
    have hdrop' : s.dropReached = false := hdrop
    rw [step_fsm s t _ h (step_of_high s hrst hf), hdrop']
    exact hf
  case highLow =>
    have hdrop' : s.dropReached = true := hdrop
    rw [step_fsm s t _ h (step_of_high s hrst hf), hdrop']
    rfl
  case lowLow => rw [step_fsm s t s h (step_of_low_wait s hrst hf hmark), hf]
  case lowHigh =>
    by_cases hrem : s.rem = 0#3
    · have hpv : s.pv = true := hmore.resolve_left (not_not.2 hrem)
      exact step_fsm s t _ h
        (step_of_takes s hrst ((takes_iff s).2 ⟨hpv, .inr ⟨hf, hrem, hmark⟩⟩))
    · exact step_fsm s t _ h (step_of_low_nextBit s hrst hf hmark hrem)
  case lowIdle => exact step_fsm s t _ h (step_of_low_goIdle s hrst hf hmark hrem hpv)

/-! ### The thresholds (spec/41_sequencer.md R128, R134) -/

theorem coe_dropPoint (s : State) :
    (s.dropPoint : Int) =
      ((s.mark : Int) - (s.inst.cfg.tail s.currentBit : Nat)) % 2 ^ s.inst.cfg.w := by
  rw [State.dropPoint, coe_subWrap]
  push_cast
  rfl

/-- The drop point reads `mark`, `sr` and the constants only. -/
theorem dropPoint_congr {s t : State} (hsr : t.sr = s.sr) (hmark : t.mark = s.mark)
    (hinst : t.inst = s.inst) : t.dropPoint = s.dropPoint := by
  rw [State.dropPoint, State.dropPoint, State.currentBit, State.currentBit, hsr, hmark, hinst]

/-- Settles O26: `TAIL` of either bit is put into R128's formula, and a step that stays in HIGH is a
wait. -/
theorem dropPointOfTheCurrentBit : Obligations.DropPointOfTheCurrentBit := by
  intro s
  refine ⟨fun hbit => ?one, fun hbit => ?zero, fun t hf h hf' => ?stays⟩
  case one =>
    have hcur : s.currentBit = true := hbit
    simp [coe_dropPoint, hcur, Config.tail]
  case zero =>
    have hcur : s.currentBit = false := hbit
    simp [coe_dropPoint, hcur, Config.tail]
  case stays =>
    cases hrst : s.input.rst
    case true =>
      rw [step_of_rst s hrst] at h
      cases h
      exact absurd hf' Fsm_idle_ne_high
    case false =>
      cases hdrop : s.dropReached
      case true =>
        rw [step_of_high s hrst hf, hdrop] at h
        cases h
        simp at hf'
      case false =>
        rw [step_of_high s hrst hf, hdrop] at h
        cases h
        exact ⟨by simp, dropPoint_congr (by simp) (by simp) (by simp)⟩

/-- A threshold is reached from its own count on, for half the range. -/
theorem reached_addWrap_of_le (w c e d : Nat) (hle : d ≤ e) (hlt : e - d < 2 ^ (w - 1)) :
    reached w (addWrap w c e) (addWrap w c d) = true := by
  have hhalf : 2 ^ (w - 1) ≤ 2 ^ w := Nat.pow_le_pow_right (by omega) (by omega)
  rw [reached_iff, subWrap_addWrap, subWrap_of_le w e d hle (by omega)]
  exact hlt

/-- Settles O34: before its count a threshold within `TOTAL` is in the far half of the range, and
from its count on in the near half. -/
theorem reachedIsExact : Obligations.ReachedIsExact := by
  intro i c d e hd
  have hpos : 0 < 2 ^ (i.cfg.w - 1) := Nat.two_pow_pos _
  refine ⟨fun hlt => ⟨?difference, ?before⟩, fun hle hfar => ?after⟩
  case difference =>
    have hrange := two_pow_eq_double i.cfg.w (by have := i.three_le_w; omega)
    have htotal := i.total_le
    exact (subWrap_addWrap i.cfg.w c e d).trans (subWrap_of_lt _ e d hlt (by omega))
  case before =>
    exact (reached_addWrap i c e d (by omega) hd).trans (decide_eq_false hlt.not_ge)
  case after => exact reached_addWrap_of_le i.cfg.w c e d hle (by omega)

/-! ### The idle block (spec/41_sequencer.md R121, R137) -/

/-- The registers that the port part leaves in a state depend on its registers and on what is
presented. -/
theorem registers_afterPort_self {s s' : State} (hreg : s.registers = s'.registers)
    (hrst : s.input.rst = s'.input.rst) (hvalid : s.input.cmdValid = s'.input.cmdValid)
    (hword : s.input.cmdWord = s'.input.cmdWord) :
    (afterPort s s).registers = (afterPort s' s').registers := by
  have hpv : s.pv = s'.pv := congrArg Registers.pv hreg
  have hacc : s.accepts = s'.accepts := by
    rw [State.accepts, State.accepts, State.cmdReady, State.cmdReady, hvalid, hrst, hpv]
  simp only [State.registers, Registers.mk.injEq] at hreg
  simp [State.registers, afterPort_pv, afterPort_pn, afterPort_pb, hacc, hword, hreg]

/-- Settles O51: a reset edge writes constants, and any other one lets the port part alone write. -/
theorem idleBlockReadsNoCounter : Obligations.IdleBlockReadsNoCounter := by
  intro s t s' hreg hinst hf hpv hrst hvalid hword h
  have hf' : s'.fsm = Fsm.idle := (congrArg Registers.fsm hreg).symm.trans hf
  have hpv' : s'.pv = false := (congrArg Registers.pv hreg).symm.trans hpv
  cases hr : s.input.rst
  case true =>
    rw [step_of_rst s hr] at h
    cases h
    exact ⟨_, step_of_rst s' (hrst ▸ hr), rfl⟩
  case false =>
    rw [step_of_idle_wait s hr hf hpv] at h
    cases h
    exact ⟨_, step_of_idle_wait s' (hrst ▸ hr) hf' hpv',
      (registers_afterPort_self hreg hrst hvalid hword).symm⟩

/-- Settles O42, by induction on the cycles: each step is the wait of R121 with nothing accepted. -/
theorem idleForEver : Obligations.IdleForEver := by
  intro s k hf hpv hnr hnc
  induction k generalizing s with
  | zero => exact ⟨s, rfl, rfl, (busy_eq_false_iff s).2 ⟨hf, hpv⟩⟩
  | succ k ih =>
      have hstep : step s = .next (nextCycle s) := by
        rw [step_of_idle_wait s (hnr 0 (by omega)) hf hpv, afterPort_of_not_accepts s s
          (accepts_eq_false_of_cmdValid s (hnc 0 (by omega)))]
      obtain ⟨t, hrun, hreg, hbusy⟩ := ih (nextCycle s) hf hpv (step_noReset k s _ hstep hnr)
        (fun j hj => by rw [nextCycle_inputAt]; exact hnc (j + 1) (by omega))
      exact ⟨t, by rw [cycles_succ_of_step k s _ hstep, hrun], hreg, hbusy⟩

/-- A command accepted in a step that ends in `IDLE` is taken in the next cycle. -/
theorem takes_of_accepts (s a : State) (hrst : s.input.rst = false) (hacc : s.accepts = true)
    (hstep : step s = .next a) (hidle : a.fsm = Fsm.idle) :
    a.takes = true ∧ a.pv = true ∧ a.pn = CmdWord.nField s.input.cmdWord ∧
      a.pb = CmdWord.byteField s.input.cmdWord := by
  have hpv : a.pv = true := by simp [step_pv s a hrst hstep, hacc]
  obtain ⟨hpn, hpb⟩ := step_pn_pb s a hrst hstep
  rw [if_pos hacc] at hpn hpb
  exact ⟨(takes_iff a).2 ⟨hpv, .inl hidle⟩, hpv, hpn, hpb⟩

/-- Settles O41: both kinds of step end in `IDLE` with the command pending, and the next one takes
it. -/
theorem startFromIdle : Obligations.StartFromIdle := by
  intro s hnr hvalid hpv hfrom
  have hrst : s.input.rst = false := hnr 0 (by omega)
  have hacc : s.accepts = true := (accepts_iff s hrst).2 ⟨hvalid, hpv⟩
  obtain ⟨a, hstep, hidle, hlow, hstay⟩ : ∃ a, step s = .next a ∧ a.fsm = Fsm.idle ∧
      (s.fsm = Fsm.low → a.pin = false) ∧ (s.fsm = Fsm.idle → a.pin = s.pin) := by
    rcases hfrom with hf | ⟨hf, hmark, hrem⟩
    · exact ⟨_, step_of_idle_wait s hrst hf hpv, by simp [hf], by simp [hf], by simp⟩
    · exact ⟨_, step_of_low_goIdle s hrst hf hmark hrem hpv, by simp, by simp, by simp [hf]⟩
  obtain ⟨htakes, hfull, hpn, hpb⟩ := takes_of_accepts s a hrst hacc hstep hidle
  have hrst' : a.input.rst = false := step_noReset 1 s a hstep hnr 0 (by omega)
  have hnext := step_of_takes a hrst' htakes
  have hempty := (step_pv_eq_false_iff_takes a _ hrst' hnext hfull).2 htakes
  have hrun : cycles 1 s = .next a := cycles_succ_of_step 0 s a hstep
  refine ⟨a, _, hrun, cycles_succ_of_cycles hrun hnext, hidle, hfull, htakes, hlow, hstay, ?_, ?_,
    hempty, ?_, ?_, ?_⟩
  · simp
  · simp
  · rw [nextCycle_rem, afterPort_rem]
    exact hpn
  · rw [nextCycle_sr, afterPort_sr]
    exact hpb
  · simp [addWrap, step_inst s a hstep]

/-! ### One bit in the nominal environment (spec/41_sequencer.md R132) -/

/-- No bit starts in the reserved state, so the step that starts one answers a next state. -/
theorem exists_step_of_startsBit (s : State) (v : Byte) (hrst : s.input.rst = false)
    (hstart : s.startsBit = some v) :
    ∃ u, step s = .next u ∧ u.sr = v ∧ u.fsm = Fsm.high ∧ u.pin = true ∧
      u.mark = addWrap s.inst.cfg.w s.cyc s.inst.cfg.total := by
  have hfsm : s.fsm ≠ Fsm.reserved := by
    intro hf
    have hnone := startsBit_eq_none s (by simp [State.takes, hf]) (by simp [hf])
    simp [hnone] at hstart
  obtain ⟨u, hstep⟩ := exists_step_of_ne_reserved s hfsm
  obtain ⟨hmark, hsr, hpin, hhigh⟩ := (markIsWrittenAtBitStartOnly s u hrst hstep).1 v hstart
  exact ⟨u, hstep, hsr, hhigh, hpin, hmark⟩

/-- The `j`-th cycle of a bit that starts in this cycle. -/
theorem exists_inBit_of_startsBit (s : State) (v : Byte) (hstart : s.startsBit = some v)
    (hn : Nominal s s.inst.cfg.total) (j : Nat) (hj : 1 ≤ j) (hjt : j ≤ s.inst.cfg.total) :
    ∃ t r, cycles j s = .next t ∧ InBit s.cyc v r j t := by
  obtain ⟨hrst, hnext⟩ := hn.next s.inst.one_le_total
  obtain ⟨u, hstep, hsr, hfsm, hpin, hmark⟩ := exists_step_of_startsBit s v hrst hstart
  have hinst := step_inst s u hstep
  have hhigh := (u.inst.highFor_bounds v.msb).1
  have hfirst : InBit s.cyc v u.rem.toNat 1 u :=
    { sr := hsr
      rem := rfl
      mark := by rw [hmark, hinst]
      cyc := by rw [State.cyc, step_sampleAt s u hstep, hnext, hinst]
      fsm := by rw [hfsm, if_pos hhigh]
      pin := by rw [hpin, decide_eq_true hhigh] }
  obtain ⟨n, rfl⟩ : ∃ n, j = 1 + n := Nat.exists_eq_add_of_le hj
  have hrun : cycles 1 s = .next u := cycles_succ_of_step 0 s u hstep
  obtain ⟨t, hrest, ht⟩ := hfirst.cycles n (by rwa [hinst]) ((hn.mono hjt).of_cycles hrun)
  exact ⟨t, _, by rw [cycles_add 1 n s u hrun, hrest], ht⟩

section
variable {c : Nat} {v : Byte} {r j : Nat} {s : State}

/-- In its last cycle a bit is low and its mark is reached. -/
theorem InBit.low_of_last (h : InBit c v r s.inst.cfg.total s) :
    s.fsm = Fsm.low ∧ s.pin = false ∧ s.markReached = true := by
  have hlow := (s.inst.highFor_bounds v.msb).2.not_ge
  exact ⟨by rw [h.fsm, if_neg hlow], by rw [h.pin, decide_eq_false hlow],
    by rw [h.markReached_eq le_rfl, decide_eq_true le_rfl]⟩

theorem InBit.markReached_eq_false (h : InBit c v r j s) (hj : j < s.inst.cfg.total) :
    s.markReached = false := by
  rw [h.markReached_eq hj.le, decide_eq_false hj.not_ge]

/-- Nothing is taken in a bit but in the last cycle of the last bit of a command. -/
theorem InBit.takes_eq_false (h : InBit c v r j s) (hend : j < s.inst.cfg.total ∨ r ≠ 0) :
    s.takes = false := by
  by_cases hhigh : j ≤ Config.highFor s.inst.cfg v.msb
  · exact takes_eq_false_of_high s (by rw [h.fsm, if_pos hhigh])
  · refine takes_eq_false_of_low s (by rw [h.fsm, if_neg hhigh]) ?_
    refine hend.imp h.markReached_eq_false fun hr hrem => hr ?_
    rw [← h.rem, hrem]
    rfl

/-- No bit starts before the last cycle of the one that is sent. -/
theorem InBit.startsBit_eq_none (h : InBit c v r j s) (hj : j < s.inst.cfg.total) :
    s.startsBit = none := by
  have hmark := h.markReached_eq_false hj
  exact Machine.startsBit_eq_none s (h.takes_eq_false (.inl hj)) (by simp [hmark])

end

/-- Settles O36: the cycle is the `j`-th of the bit's symbol, and the last one has the count of
`mark`. -/
theorem bitTimingIsExact : Obligations.BitTimingIsExact := by
  intro s v hstart hnr hcount j hj hjt
  obtain ⟨t, r, hrun, ht⟩ := exists_inBit_of_startsBit s v hstart ⟨hnr, hcount⟩ j hj hjt
  have hinst := (cycles_inst_inputAt j s t hrun).1
  refine ⟨t, hrun, ht.sr, ?pin, ?count, fun hlt => ?before, fun hlast => ?last⟩
  case pin =>
    rw [ht.pin, hinst, Config.highFor_eq, decide_eq_true_iff]
    rfl
  case count =>
    rw [ht.cyc, hinst]
    rfl
  case before => exact ht.startsBit_eq_none (by rwa [hinst])
  case last =>
    rw [hlast, ← hinst] at ht
    obtain ⟨hfsm, -, hmark⟩ := ht.low_of_last
    exact ⟨hfsm, ht.cyc.trans ht.mark.symm, hmark⟩

/-! ### Two commands without a gap (spec/41_sequencer.md R136) -/

section
variable {s t : State} {m n : Nat}

/-- The pin in the `j`-th cycle of the `i`-th bit of a command that is taken in this cycle. -/
theorem pinAfter_of_command (htakes : s.takes = true)
    (hn : Nominal s (bitCount s.pn * s.inst.cfg.total)) (i j : Nat) (hi : i < bitCount s.pn)
    (hj : 1 ≤ j) (hjt : j ≤ s.inst.cfg.total) :
    pinAfter (i * s.inst.cfg.total + j) s =
      some (decide (j ≤ Config.highFor s.inst.cfg (s.pb <<< i).msb)) := by
  obtain ⟨t, hrun, ht⟩ := exists_inBit_of_command s htakes i j hi hj hjt hn
  rw [pinAfter_of_cycles hrun, ht.pin, (cycles_inst_inputAt _ s t hrun).1]

theorem exists_cycle_of_command (htakes : s.takes = true)
    (hn : Nominal s (bitCount s.pn * s.inst.cfg.total)) (hm : 1 ≤ m)
    (hmk : m ≤ bitCount s.pn * s.inst.cfg.total) : ∃ t, cycles m s = .next t := by
  obtain ⟨i, j, hi, hj, hjt, rfl⟩ := exists_symbol_of_cycle _ _ m hm hmk
  obtain ⟨t, hrun, -⟩ := exists_inBit_of_command s htakes i j hi hj hjt hn
  exact ⟨t, hrun⟩

/-- After a take nothing is taken before the last cycle of the command. -/
theorem takes_eq_false_in_command (htakes : s.takes = true)
    (hn : Nominal s (bitCount s.pn * s.inst.cfg.total)) (hm : 1 ≤ m)
    (hmk : m < bitCount s.pn * s.inst.cfg.total) (hrun : cycles m s = .next t) :
    t.takes = false := by
  obtain ⟨i, j, hi, hj, hjt, rfl⟩ := exists_symbol_of_cycle _ _ m hm hmk.le
  obtain ⟨t', hrun', ht⟩ := exists_inBit_of_command s htakes i j hi hj hjt hn
  obtain rfl : t = t' := Host.Outcome.next.inj (hrun.symm.trans hrun')
  refine ht.takes_eq_false ?_
  rw [(cycles_inst_inputAt _ s t hrun).1]
  rcases hjt.lt_or_eq with hlt | rfl
  · exact .inl hlt
  · rw [← Nat.succ_mul] at hmk
    have hlast : i + 1 < bitCount s.pn := Nat.lt_of_mul_lt_mul_right hmk
    simp only [bitCount] at hlast
    exact .inr (by omega)

/-- The first command presented after this cycle is presented in the `n`-th from now. -/
structure FirstPresentedAt (s : State) (n : Nat) : Prop where
  pos : 1 ≤ n
  valid : (s.inputAt n).cmdValid = true
  first : ∀ i, 1 ≤ i → i < n → (s.inputAt i).cmdValid = false

/-- From a take up to the cycle in which the next command is presented, nothing is pending. -/
theorem pv_eq_false_of_firstPresentedAt (htakes : s.takes = true) (hp : FirstPresentedAt s n)
    (hm : 1 ≤ m) (hmn : m ≤ n) (hnr : NoReset s m) (hrun : cycles m s = .next t) :
    t.pv = false := by
  induction m, hm using Nat.le_induction generalizing t with
  | base =>
      obtain ⟨u, hu, hstep⟩ := cycles_succ_last 0 s t hrun
      cases hu
      exact (step_pv_eq_false_iff_takes s t (hnr 0 (by omega)) hstep (takes_pv s htakes)).2 htakes
  | succ m hm ih =>
      obtain ⟨u, hu, hstep⟩ := cycles_succ_last m s t hrun
      have hinput : u.input = s.inputAt m := (cycles_inst_inputAt m s u hu).2 0
      have hempty := ih (by omega) (fun j hj => hnr j (by omega)) hu
      have hacc := accepts_eq_false_of_cmdValid u (hinput ▸ hp.first m hm (by omega))
      simp [step_pv u t (hinput ▸ hnr m (by omega)) hstep, hempty, hacc]

/-- From the cycle after its presentation up to the last cycle of the command before it, a command
is pending. -/
theorem pending_of_firstPresentedAt (htakes : s.takes = true)
    (hn : Nominal s (bitCount s.pn * s.inst.cfg.total)) (hp : FirstPresentedAt s n)
    (hnm : n + 1 ≤ m) (hmk : m ≤ bitCount s.pn * s.inst.cfg.total)
    (hrun : cycles m s = .next t) :
    t.pv = true ∧ t.pn = CmdWord.nField (s.inputAt n).cmdWord ∧
      t.pb = CmdWord.byteField (s.inputAt n).cmdWord := by
  induction m, hnm using Nat.le_induction generalizing t with
  | base =>
      obtain ⟨u, hu, hstep⟩ := cycles_succ_last n s t hrun
      have hinput : u.input = s.inputAt n := (cycles_inst_inputAt n s u hu).2 0
      have hempty := pv_eq_false_of_firstPresentedAt htakes hp hp.pos le_rfl
        (fun j hj => hn.noReset j (by omega)) hu
      rw [← hinput]
      obtain ⟨hpv, hpn, hpb, -⟩ := (acceptanceAtAnEdge u t (hinput ▸ hn.noReset n (by omega))
        hstep).1 (hinput ▸ hp.valid) hempty
      exact ⟨hpv, hpn, hpb⟩
  | succ m hnm ih =>
      obtain ⟨u, hu, hstep⟩ := cycles_succ_last m s t hrun
      have hinput : u.input = s.inputAt m := (cycles_inst_inputAt m s u hu).2 0
      obtain ⟨hpv, hpn, hpb⟩ := ih (by omega) hu
      have hkept := takes_eq_false_in_command htakes hn (by omega) (by omega) hu
      obtain ⟨hpn', hpb', hpv', -⟩ := (acceptanceAtAnEdge u t
        (hinput ▸ hn.noReset m (by omega)) hstep).2 (by simp [hpv])
      exact ⟨(hpv' hkept).trans hpv, hpn'.trans hpn, hpb'.trans hpb⟩

/-- Up to the cycle in which the next command is presented, `cmd_ready` is 1. -/
theorem cmdReady_of_firstPresentedAt (htakes : s.takes = true) (hp : FirstPresentedAt s n)
    (hm : 1 ≤ m) (hmn : m ≤ n) (hnr : NoReset s (m + 1)) (hrun : cycles m s = .next t) :
    t.cmdReady = true := by
  have hinput : t.input = s.inputAt m := (cycles_inst_inputAt m s t hrun).2 0
  have hpv := pv_eq_false_of_firstPresentedAt htakes hp hm hmn (fun j hj => hnr j (by omega)) hrun
  exact (cmdReady_iff t).2 ⟨hpv, hinput ▸ hnr m (by omega)⟩

/-- The last cycle of a command takes the one that was presented during it. -/
theorem exists_chainedTake (htakes : s.takes = true)
    (hn : Nominal s (bitCount s.pn * s.inst.cfg.total)) (hp : FirstPresentedAt s n)
    (hnk : n + 1 ≤ bitCount s.pn * s.inst.cfg.total) :
    ∃ q, cycles (bitCount s.pn * s.inst.cfg.total) s = .next q ∧ q.fsm = Fsm.low ∧
      q.rem = 0#3 ∧ q.pv = true ∧ q.takes = true ∧ q.pin = false ∧
      q.pn = CmdWord.nField (s.inputAt n).cmdWord ∧
      q.pb = CmdWord.byteField (s.inputAt n).cmdWord := by
  obtain ⟨q, hlast, hq⟩ := exists_inBit_of_command s htakes s.pn.toNat s.inst.cfg.total
    (Nat.lt_succ_self _) s.inst.one_le_total le_rfl hn
  have hrun : cycles (bitCount s.pn * s.inst.cfg.total) s = .next q := by
    rwa [bitCount, Nat.succ_mul]
  rw [← (cycles_inst_inputAt _ s q hrun).1] at hq
  obtain ⟨hfsm, hpin, hmark⟩ := hq.low_of_last
  have hrem : q.rem = 0#3 := BitVec.eq_of_toNat_eq (hq.rem.trans (Nat.sub_self _))
  obtain ⟨hpv, hpn, hpb⟩ := pending_of_firstPresentedAt htakes hn hp hnk le_rfl hrun
  have htakes' : q.takes = true := (takes_iff q).2 ⟨hpv, .inr ⟨hfsm, hrem, hmark⟩⟩
  exact ⟨q, hrun, hfsm, hrem, hpv, htakes', hpin, hpn, hpb⟩

/-- The pin is low in the cycle in which the last bit of a command starts. -/
theorem pinAfter_at_lastStart (htakes : s.takes = true)
    (hn : Nominal s (bitCount s.pn * s.inst.cfg.total))
    (hlow : 2 ≤ bitCount s.pn ∨ s.pin = false) :
    pinAfter (s.pn.toNat * s.inst.cfg.total) s = some false := by
  cases hbits : s.pn.toNat with
  | zero =>
      have hpin : s.pin = false := hlow.resolve_left (by rw [bitCount]; omega)
      rw [Nat.zero_mul, pinAfter_of_cycles (cycles_zero s), hpin]
  | succ p =>
      rw [Nat.succ_mul, pinAfter_of_command htakes hn p _ (by rw [bitCount]; omega)
        s.inst.one_le_total le_rfl, decide_eq_false (s.inst.highFor_bounds _).2.not_ge]

end

/-- A command is never shorter than the three phases of one bit. -/
theorem three_le_command (i : Instance) (n : BitIndex) : 3 ≤ bitCount n * i.cfg.total := by
  obtain ⟨h1, h2, h3⟩ := i.phases_pos
  have htotal : 3 ≤ i.cfg.total := by
    simp only [Config.total]
    omega
  exact htotal.trans (Nat.le_mul_of_pos_left _ (bitCount_mem_range n).1)

/-- Settles O40: the next command is pending in the last cycle of the one before it, which takes it;
the edges between are those of the bits' symbols. -/
theorem noGapBetweenCommands : Obligations.NoGapBetweenCommands := by
  intro s n htakes hnr hcount hn1 hnk hvalid hfirst
  have hn : Nominal s (bitCount s.pn * s.inst.cfg.total) :=
    ⟨fun j hj => hnr j (by omega), hcount⟩
  have hp : FirstPresentedAt s n := ⟨hn1, hvalid, hfirst⟩
  have hpin := fun j => pinAfter_of_command htakes hn s.pn.toNat j (Nat.lt_succ_self _)
  have hpred : bitCount s.pn - 1 = s.pn.toNat := Nat.add_sub_cancel _ 1
  obtain ⟨q, hrun, hfsm, hrem, hpv, htakes', hlow, hpn, hpb⟩ :=
    exists_chainedTake htakes hn hp (by omega)
  have hinput : q.input = s.inputAt _ := (cycles_inst_inputAt _ s q hrun).2 0
  have hrst : q.input.rst = false := hinput ▸ hnr _ (Nat.lt_succ_self _)
  have hnext := step_of_takes q hrst htakes'
  have hempty := (step_pv_eq_false_iff_takes q _ hrst hnext hpv).2 htakes'
  obtain ⟨hsr', hrem', hpin', hfsm', -⟩ :=
    (takeOfThePendingCommand q _ hrst hnext).2 hpv hempty
  rw [hpred]
  refine ⟨three_le_command s.inst s.pn, fun j hj hjn => ?ready,
    ⟨q, hrun, hfsm, hrem, hpv, htakes', hlow, hpn, hpb⟩,
    ⟨_, cycles_succ_of_cycles hrun hnext, hfsm', hpin', hempty, hrem'.trans hpn, hsr'.trans hpb⟩,
    pinAfter_at_lastStart htakes hn, ?rises, fun j hj hjt => ?noLaterEdge⟩
  case ready =>
    obtain ⟨a, ha⟩ := exists_cycle_of_command htakes hn hj (by omega)
    exact ⟨a, ha, cmdReady_of_firstPresentedAt htakes hp hj hjn
      (fun i hi => hnr i (by omega)) ha⟩
  case rises =>
    rw [hpin 1 le_rfl s.inst.one_le_total, decide_eq_true (s.inst.highFor_bounds _).1]
  case noLaterEdge =>
    rw [Nat.add_sub_assoc (by omega), hpin j (by omega) hjt, hpin (j - 1) (by omega) (by omega)]
    simp only [Option.some.injEq, decide_eq_true_eq]
    omega

/-! ### A counter that may pause (spec/41_sequencer.md R133, spec/70_reset_and_hazards.md R177) -/

/-- The comparison reads its two counts modulo `2^W`. -/
theorem reached_mod (w c t : Nat) : reached w (c % 2 ^ w) (t % 2 ^ w) = reached w c t := by
  rw [reached, reached, subWrap_mod]

/-- A threshold at the distance `d` is reached at a sample up to half the range past it. -/
theorem reached_sampleAt (s : State) (threshold j : Nat)
    (hle : subWrap s.inst.cfg.w threshold s.cyc ≤ s.risen j)
    (hlt : s.risen j < subWrap s.inst.cfg.w threshold s.cyc + 2 ^ (s.inst.cfg.w - 1)) :
    reached s.inst.cfg.w (s.sampleAt j) threshold = true := by
  rw [← reached_mod, Nat.mod_eq_of_lt (sampleAt_lt s j), sampleAt_eq_risen, ← addWrap_subWrap]
  exact reached_addWrap_of_le _ _ _ _ hle (by omega)

/-- In the weaker environment, the first sample that has risen by `d` has risen by less than half
the range more. -/
theorem exists_first_risen (s : State) (k d : Nat) (hw : CountsWeakly s k) (hd : d ≤ s.risen k) :
    ∃ j, j ≤ k ∧ d ≤ s.risen j ∧ s.risen j < d + 2 ^ (s.inst.cfg.w - 1) ∧
      ∀ i, i < j → s.risen i < d := by
  obtain ⟨j, hjk, hj⟩ := exists_minimal_le_of_wellFoundedLT (fun j => d ≤ s.risen j) k hd
  have hbefore : ∀ i, i < j → s.risen i < d := fun i hi => not_le.1 (hj.not_prop_of_lt hi)
  refine ⟨j, hjk, hj.prop, ?_, hbefore⟩
  have hpos : 0 < 2 ^ (s.inst.cfg.w - 1) := Nat.two_pow_pos _
  cases j with
  | zero =>
      simp only [State.risen]
      omega
  | succ j =>
      have hstep := hw j (by omega)
      have hlast := hbefore j (by omega)
      simp only [State.risen]
      omega

/-- In the weaker environment a threshold is reached once the counter has risen by the distance to
it. -/
theorem exists_reached_of_risen (s : State) (k threshold : Nat) (hw : CountsWeakly s k)
    (hrise : subWrap s.inst.cfg.w threshold s.cyc ≤ s.risen k) :
    ∃ j, j ≤ k ∧ reached s.inst.cfg.w (s.sampleAt j) threshold = true := by
  obtain ⟨j, hjk, hle, hlt, -⟩ := exists_first_risen s k _ hw hrise
  exact ⟨j, hjk, reached_sampleAt s threshold j hle hlt⟩

/-! ### The two parts of a bit (spec/41_sequencer.md R123, R129) -/

/-- The threshold at which the part of a bit that a block is in ends: `dropPoint` in `HIGH` and
`mark` in `LOW`. -/
def State.partEnd (s : State) : Nat := if s.fsm = Fsm.high then s.dropPoint else s.mark

theorem partEnd_of_high (s : State) (hf : s.fsm = Fsm.high) : s.partEnd = s.dropPoint := if_pos hf

theorem partEnd_of_low (s : State) (hf : s.fsm = Fsm.low) : s.partEnd = s.mark :=
  if_neg (by simp [hf])

/-- `t` is in the same part of the same bit as `s`. -/
structure SamePart (s t : State) : Prop where
  inst : t.inst = s.inst
  fsm : t.fsm = s.fsm
  pin : t.pin = s.pin
  sr : t.sr = s.sr
  rem : t.rem = s.rem
  mark : t.mark = s.mark

theorem SamePart.refl (s : State) : SamePart s s := ⟨rfl, rfl, rfl, rfl, rfl, rfl⟩

theorem SamePart.trans {s t u : State} (h : SamePart s t) (h' : SamePart t u) : SamePart s u :=
  ⟨h'.inst.trans h.inst, h'.fsm.trans h.fsm, h'.pin.trans h.pin, h'.sr.trans h.sr,
    h'.rem.trans h.rem, h'.mark.trans h.mark⟩

theorem SamePart.dropPoint {s t : State} (h : SamePart s t) : t.dropPoint = s.dropPoint :=
  dropPoint_congr h.sr h.mark h.inst

theorem SamePart.partEnd {s t : State} (h : SamePart s t) : t.partEnd = s.partEnd := by
  rw [State.partEnd, State.partEnd, h.fsm, h.dropPoint, h.mark]

theorem samePart_nextCycle_afterPort (s : State) : SamePart s (nextCycle (afterPort s s)) := by
  constructor <;> simp

/-- A block whose threshold is not reached waits. -/
theorem exists_step_samePart (s : State) (hf : s.fsm = Fsm.high ∨ s.fsm = Fsm.low)
    (hrst : s.input.rst = false) (hwait : reached s.inst.cfg.w s.cyc s.partEnd = false) :
    ∃ t, step s = .next t ∧ SamePart s t := by
  refine ⟨_, ?_, samePart_nextCycle_afterPort s⟩
  rcases hf with hf | hf
  · rw [partEnd_of_high s hf] at hwait
    have hdrop : s.dropReached = false := hwait
    rw [step_of_high s hrst hf, hdrop]
    rfl
  · rw [partEnd_of_low s hf] at hwait
    exact step_of_low_wait s hrst hf hwait

/-- It waits for as long as that lasts. -/
theorem exists_cycles_samePart (s : State) (k : Nat) (hf : s.fsm = Fsm.high ∨ s.fsm = Fsm.low)
    (hnr : NoReset s k)
    (hwait : ∀ j, j < k → reached s.inst.cfg.w (s.sampleAt j) s.partEnd = false) :
    ∃ t, cycles k s = .next t ∧ SamePart s t := by
  induction k with
  | zero => exact ⟨s, rfl, .refl s⟩
  | succ k ih =>
      obtain ⟨u, hrun, hu⟩ := ih (fun j hj => hnr j (by omega)) (fun j hj => hwait j (by omega))
      have hinput : u.input = s.inputAt k := (cycles_inst_inputAt k s u hrun).2 0
      have hcyc : u.cyc = s.sampleAt k := cycles_sampleAt k s u hrun 0
      obtain ⟨t, hstep, ht⟩ := exists_step_samePart u (by rwa [hu.fsm])
        (hinput ▸ hnr k (by omega))
        (by rw [hu.inst, hcyc, hu.partEnd]; exact hwait k (by omega))
      exact ⟨t, cycles_succ_of_cycles hrun hstep, hu.trans ht⟩

/-- In the weaker environment a part of a bit comes to its end, and is the same part up to there. -/
theorem exists_partEnd_reached (s : State) (k : Nat) (hf : s.fsm = Fsm.high ∨ s.fsm = Fsm.low)
    (hnr : NoReset s k) (hw : CountsWeakly s k)
    (hrise : reached s.inst.cfg.w s.cyc s.partEnd = true ∨
      subWrap s.inst.cfg.w s.partEnd s.cyc ≤ s.risen k) :
    ∃ j, j ≤ k ∧ reached s.inst.cfg.w (s.sampleAt j) s.partEnd = true ∧
      ∀ m, m ≤ j → ∃ t, cycles m s = .next t ∧ SamePart s t := by
  have hsome : ∃ i, i ≤ k ∧ reached s.inst.cfg.w (s.sampleAt i) s.partEnd = true :=
    hrise.elim (fun hnow => ⟨0, k.zero_le, hnow⟩) (exists_reached_of_risen s k _ hw)
  obtain ⟨i, hik, hi⟩ := hsome
  obtain ⟨j, hji, hj⟩ := exists_minimal_le_of_wellFoundedLT
    (fun j => reached s.inst.cfg.w (s.sampleAt j) s.partEnd = true) i hi
  refine ⟨j, hji.trans hik, hj.prop, fun m hm => exists_cycles_samePart s m hf
    (fun n hn => hnr n (by omega))
    fun n hn => Bool.eq_false_iff.2 (hj.not_prop_of_lt (hn.trans_le hm))⟩

/-- One step after its drop point is reached, a bit is in `LOW`. -/
theorem exists_drop (s : State) (hrst : s.input.rst = false) (hf : s.fsm = Fsm.high)
    (hdrop : s.dropReached = true) :
    ∃ t, step s = .next t ∧ t.fsm = Fsm.low ∧ t.pin = false ∧ t.sr = s.sr ∧ t.rem = s.rem ∧
      t.mark = s.mark := by
  refine ⟨_, step_of_high s hrst hf, ?_⟩
  simp [hdrop]

/-- Settles O44: either part is waited in up to the first sample at which its threshold is reached,
and HIGH then drops the pin. -/
theorem everyBitIsStillSent : Obligations.EveryBitIsStillSent := by
  refine ⟨fun s k hf hnr hw hrise => ?high, fun s k hf hnr hw hrise => ?low⟩
  case high =>
    rw [← partEnd_of_high s hf] at hrise
    obtain ⟨j, hjk, hreached, hsame⟩ :=
      exists_partEnd_reached s k (.inl hf) (fun i hi => hnr i (by omega)) hw hrise
    obtain ⟨u, hrun, hu⟩ := hsame j le_rfl
    have hinput : u.input = s.inputAt j := (cycles_inst_inputAt j s u hrun).2 0
    have hcyc : u.cyc = s.sampleAt j := cycles_sampleAt j s u hrun 0
    have hdrop : u.dropReached = true := by
      rwa [State.dropReached, hu.inst, hcyc, hu.dropPoint, ← partEnd_of_high s hf]
    obtain ⟨t, hstep, hlow, hpin, hsr, hrem, hmark⟩ :=
      exists_drop u (hinput ▸ hnr j (by omega)) (hu.fsm.trans hf) hdrop
    exact ⟨j, t, hjk, cycles_succ_of_cycles hrun hstep, hlow, hpin, hsr.trans hu.sr,
      hrem.trans hu.rem, hmark.trans hu.mark⟩
  case low =>
    rw [← partEnd_of_low s hf] at hrise
    obtain ⟨j, hjk, hreached, hsame⟩ := exists_partEnd_reached s k (.inr hf) hnr hw hrise
    obtain ⟨t, hrun, ht⟩ := hsame j le_rfl
    have hcyc : t.cyc = s.sampleAt j := cycles_sampleAt j s t hrun 0
    refine ⟨j, t, hjk, hrun, ht.fsm.trans hf, ht.pin, ht.sr, ht.rem, ht.mark, ?_⟩
    rwa [ht.inst, hcyc, ht.mark, ← partEnd_of_low s hf]

/-! ### A bit from its start to its end (spec/41_sequencer.md R133) -/

/-- `t` is in the high part of a bit that was started at the sample `c` with `v` in the shift
register. -/
structure HighPart (c : Nat) (v : Byte) (t : State) : Prop where
  fsm : t.fsm = Fsm.high
  pin : t.pin = true
  sr : t.sr = v
  mark : t.mark = addWrap t.inst.cfg.w c t.inst.cfg.total

theorem HighPart.dropPoint_eq {c : Nat} {v : Byte} {t : State} (h : HighPart c v t) :
    t.dropPoint = addWrap t.inst.cfg.w c (Config.highFor t.inst.cfg v.msb) := by
  rw [State.dropPoint, State.currentBit, h.mark, h.sr,
    subWrap_addWrap_back _ _ _ _ (Config.tail_le_total _ _), Config.highFor]

theorem HighPart.of_samePart {c : Nat} {v : Byte} {s t : State} (h : HighPart c v s)
    (hst : SamePart s t) : HighPart c v t :=
  ⟨hst.fsm.trans h.fsm, hst.pin.trans h.pin, hst.sr.trans h.sr, by
    rw [hst.mark, h.mark, hst.inst]⟩

/-- A bit that starts is in its high part until the counter has risen by the length of that part. -/
theorem exists_highPart_of_startsBit (s : State) (v : Byte) (i : Nat)
    (hstart : s.startsBit = some v) (hnr : NoReset s i)
    (hbefore : ∀ j, j < i → s.risen j < Config.highFor s.inst.cfg v.msb) (m : Nat) (hm : 1 ≤ m)
    (hmi : m ≤ i) : ∃ t, cycles m s = .next t ∧ HighPart s.cyc v t := by
  obtain ⟨u, hstep, hsr, hfsm, hpin, hmark⟩ :=
    exists_step_of_startsBit s v (hnr 0 (by omega)) hstart
  have hinst := step_inst s u hstep
  have hu : HighPart s.cyc v u := ⟨hfsm, hpin, hsr, by rw [hmark, hinst]⟩
  have hrun : cycles 1 s = .next u := cycles_succ_of_step 0 s u hstep
  have hhigh := (s.inst.highFor_bounds v.msb).2
  obtain ⟨n, rfl⟩ : ∃ n, m = 1 + n := Nat.exists_eq_add_of_le hm
  have hwait : ∀ j, j < n → reached u.inst.cfg.w (u.sampleAt j) u.partEnd = false := by
    intro j hj
    have hrisen := hbefore (1 + j) (by omega)
    rw [partEnd_of_high u hfsm, hu.dropPoint_eq, cycles_sampleAt 1 s u hrun, sampleAt_eq_risen,
      hinst, reached_addWrap _ _ _ _ (by omega) hhigh.le, decide_eq_false hrisen.not_ge]
  obtain ⟨t, hrest, ht⟩ := exists_cycles_samePart u n (.inl hfsm)
    (cycles_noReset 1 n s u hrun fun j hj => hnr j (by omega)) hwait
  exact ⟨t, by rw [cycles_add 1 n s u hrun, hrest], hu.of_samePart ht⟩

/-- In the weaker environment a bit that starts has its high part, of at least one cycle, and then
enters its low part, before the counter has risen by that part's length and a whole range. -/
theorem exists_lowPart_of_startsBit (s : State) (v : Byte) (k : Nat)
    (hstart : s.startsBit = some v) (hnr : NoReset s k) (hw : CountsWeakly s k)
    (hrise : s.inst.cfg.total + 2 ^ s.inst.cfg.w ≤ s.risen k) :
    ∃ i t, 1 ≤ i ∧ i + 1 ≤ k ∧ (∀ m, 1 ≤ m → m ≤ i → pinAfter m s = some true) ∧
      cycles (i + 1) s = .next t ∧ t.fsm = Fsm.low ∧ t.pin = false ∧ t.sr = v ∧
      s.risen (i + 1) ≤ s.inst.cfg.total + 2 ^ s.inst.cfg.w := by
  have hrange := two_pow_eq_double s.inst.cfg.w (by have := s.inst.three_le_w; omega)
  obtain ⟨hhigh1, hhigh⟩ := s.inst.highFor_bounds v.msb
  obtain ⟨i, hik, hle, hlt, hbefore⟩ :=
    exists_first_risen s k (Config.highFor s.inst.cfg v.msb) hw (by omega)
  have hi1 : 1 ≤ i := by
    rcases Nat.eq_zero_or_pos i with rfl | hpos
    · simp only [State.risen] at hle
      omega
    · exact hpos
  have hik' : i < k := by
    rcases hik.lt_or_eq with hlt' | rfl
    · exact hlt'
    · omega
  have hpart := exists_highPart_of_startsBit s v i hstart (fun j hj => hnr j (by omega)) hbefore
  obtain ⟨u, hrun, hu⟩ := hpart i hi1 le_rfl
  obtain ⟨hinst, hinputs⟩ := cycles_inst_inputAt i s u hrun
  have hinput : u.input = s.inputAt i := hinputs 0
  have hcyc : u.cyc = s.sampleAt i := cycles_sampleAt i s u hrun 0
  have hdrop : u.dropReached = true := by
    rw [State.dropReached, hu.dropPoint_eq, hcyc, sampleAt_eq_risen, hinst]
    exact reached_addWrap_of_le _ _ _ _ hle (by omega)
  obtain ⟨t, hstep, hlow, hpin, hsr, -⟩ :=
    exists_drop u (hinput ▸ hnr i hik') hu.fsm hdrop
  refine ⟨i, t, hi1, hik', fun m hm hmi => ?_, cycles_succ_of_cycles hrun hstep, hlow, hpin,
    hsr.trans hu.sr, ?_⟩
  · obtain ⟨x, hx, hxpart⟩ := hpart m hm hmi
    rw [pinAfter_of_cycles hx, hxpart.pin]
  · have hlast := hw i hik'
    simp only [State.risen]
    omega

/-- Settles O45: once the pin has dropped the counter still rises by a whole range, which is more
than the distance to any mark. -/
theorem startedBitIsSentWhole : Obligations.StartedBitIsSentWhole := by
  intro s v k hstart hnr hw hrise
  obtain ⟨i, t, hi, hik, hhigh, hrun, hlow, hpin, hsr, hrisen⟩ :=
    exists_lowPart_of_startsBit s v k hstart hnr hw (by omega)
  obtain ⟨n, rfl⟩ : ∃ n, k = i + 1 + n := Nat.exists_eq_add_of_le hik
  have hinst := (cycles_inst_inputAt _ s t hrun).1
  have henough : subWrap t.inst.cfg.w t.partEnd t.cyc ≤ t.risen n := by
    have hdist := subWrap_lt t.inst.cfg.w t.partEnd t.cyc
    have hsum := cycles_risen (i + 1) s t hrun n
    rw [hinst] at hdist ⊢
    omega
  obtain ⟨j, hjn, hreached, hsame⟩ := exists_partEnd_reached t n (.inr hlow)
    (cycles_noReset _ n s t hrun hnr) (cycles_countsWeakly _ n s t hrun hw) (.inr henough)
  refine ⟨i, i + 1 + j, hi, by omega, by omega, hhigh, fun m hm hmj => ?stillLow, ?markReached⟩
  case stillLow =>
    obtain ⟨l, rfl⟩ : ∃ l, m = i + 1 + l := Nat.exists_eq_add_of_le hm
    obtain ⟨u, hu, hsameu⟩ := hsame l (by omega)
    rw [pinAfter_of_cycles ((cycles_add _ l s t hrun).trans hu), hsameu.pin, hpin]
  case markReached =>
    obtain ⟨u, hu, hsameu⟩ := hsame j le_rfl
    have hcyc : u.cyc = t.sampleAt j := cycles_sampleAt j t u hu 0
    refine ⟨u, (cycles_add _ j s t hrun).trans hu, hsameu.sr.trans hsr, hsameu.fsm.trans hlow, ?_⟩
    rwa [hsameu.inst, hcyc, hsameu.mark, ← partEnd_of_low t hlow]

end Sys2Proof.Machine
end

section
/-! PROOFS of the statements about spec/60_exceptions.md: a counter that stops (R153). -/

namespace Sys2Proof.Machine

/-! ### A pending command that is not taken (spec/40_writebits.md R101, R102) -/

/-- While no cycle of a run takes it, a pending command stays as it is. -/
theorem cycles_keep_pending (s : State) (k : Nat) (hnr : NoReset s k)
    (hkept : ∀ j u, j < k → cycles j s = .next u → u.takes = false) (hpv : s.pv = true)
    (t : State) (hrun : cycles k s = .next t) : t.pv = true ∧ t.pn = s.pn ∧ t.pb = s.pb := by
  induction k generalizing t with
  | zero =>
      cases hrun
      exact ⟨hpv, rfl, rfl⟩
  | succ k ih =>
      obtain ⟨u, hu, hlast⟩ := cycles_succ_last k s t hrun
      have hinput : u.input = s.inputAt k := (cycles_inst_inputAt k s u hu).2 0
      obtain ⟨hpvu, hpnu, hpbu⟩ := ih (fun j hj => hnr j (by omega))
        (fun j v hj => hkept j v (by omega)) u hu
      obtain ⟨hpn, hpb, hpvt, -⟩ := (acceptanceAtAnEdge u t (hinput ▸ hnr k (by omega)) hlast).2
        (by simp [hpvu])
      exact ⟨(hpvt (hkept k u (by omega) hu)).trans hpvu, hpn.trans hpnu, hpb.trans hpbu⟩

/-! ### The hang (spec/60_exceptions.md R153) -/

/-- A part of a bit whose threshold is not reached takes no command. -/
theorem takes_eq_false_of_wait (s : State) (hf : s.fsm = Fsm.high ∨ s.fsm = Fsm.low)
    (hwait : reached s.inst.cfg.w s.cyc s.partEnd = false) : s.takes = false := by
  rcases hf with hf | hf
  · exact takes_eq_false_of_high s hf
  · rw [partEnd_of_low s hf] at hwait
    exact takes_eq_false_of_low s hf (.inl hwait)

/-- Nor does any cycle of a wait. -/
theorem takes_eq_false_in_wait (s : State) (k : Nat) (hf : s.fsm = Fsm.high ∨ s.fsm = Fsm.low)
    (hnr : NoReset s k)
    (hwait : ∀ j, j < k → reached s.inst.cfg.w (s.sampleAt j) s.partEnd = false)
    (j : Nat) (u : State) (hj : j < k) (hrun : cycles j s = .next u) : u.takes = false := by
  obtain ⟨v, hv, hsame⟩ := exists_cycles_samePart s j hf (fun i hi => hnr i (by omega))
    (fun i hi => hwait i (by omega))
  obtain rfl : u = v := Host.Outcome.next.inj (hrun.symm.trans hv)
  have hcyc : u.cyc = s.sampleAt j := cycles_sampleAt j s u hrun 0
  refine takes_eq_false_of_wait u (by rwa [hsame.fsm]) ?_
  rw [hsame.inst, hcyc, hsame.partEnd]
  exact hwait j hj

/-- Settles O43: the block waits in the same part of the same bit, which is not `IDLE`, and no
cycle of the wait takes the pending command. -/
theorem stoppedCounterHangs : Obligations.StoppedCounterHangs := by
  intro s k hnr hstopped
  obtain ⟨hf, hwait⟩ : (s.fsm = Fsm.high ∨ s.fsm = Fsm.low) ∧
      ∀ j, j < k → reached s.inst.cfg.w (s.sampleAt j) s.partEnd = false := by
    rcases hstopped with ⟨hf, hwait⟩ | ⟨hf, hwait⟩
    · exact ⟨.inl hf, by rwa [partEnd_of_high s hf]⟩
    · exact ⟨.inr hf, by rwa [partEnd_of_low s hf]⟩
  obtain ⟨t, hrun, hsame⟩ := exists_cycles_samePart s k hf hnr hwait
  have hnotIdle : t.fsm ≠ Fsm.idle := by
    rw [hsame.fsm]
    rcases hf with hf | hf <;> simp [hf]
  refine ⟨t, hrun, hsame.fsm, hsame.pin, (busy_iff t).2 (.inl hnotIdle), hsame.sr, hsame.rem,
    hsame.mark, fun hfull => ?_⟩
  obtain ⟨hpv, hpn, hpb⟩ := cycles_keep_pending s k hnr
    (takes_eq_false_in_wait s k hf hnr hwait) hfull t hrun
  exact ⟨hpv, hpn, hpb, cmdReady_eq_false t (.inl hpv)⟩

end Sys2Proof.Machine
end

section
/-! PROOFS of the statements about spec/70_reset_and_hazards.md: the block after a reset (R171), the
constant configuration (R182), and how late an edge can be when the counter rises by more than one
(R177). -/

namespace Sys2Proof.Machine

/-! ### After a reset edge (spec/70_reset_and_hazards.md R171) -/

/-- Settles O20: a reset edge leaves the block idle with nothing pending, and such a block keeps
its registers until something is presented. -/
theorem resetBlockWaitsForACommand : Obligations.ResetBlockWaitsForACommand := by
  intro s u k hrst hstep hnr hnc
  have hregu : u.registers = ⟨0b00#2, false, 0#8, 0#3, 0, false, 0#3, 0#8⟩ := by
    obtain ⟨-, u', hstep', hreg⟩ := resetEdgeClearsEveryRegister s hrst
    obtain rfl : u = u' := Host.Outcome.next.inj (hstep.symm.trans hstep')
    exact hreg
  obtain ⟨t, hrun, hkept, hbusy⟩ := idleForEver u k (congrArg Registers.fsm hregu)
    (congrArg Registers.pv hregu) hnr hnc
  have hreg := hkept.trans hregu
  exact ⟨t, hrun, hreg, hbusy, congrArg Registers.pin hreg, rfl,
    fun h => (cmdReady_iff t).2 ⟨congrArg Registers.pv hreg, h⟩⟩

/-! ### The configuration (spec/70_reset_and_hazards.md R182) -/

/-- Settles O31: no step writes the instance, so no run does. -/
theorem configurationNeverChanges : Obligations.ConfigurationNeverChanges := by
  intro s t k hrun
  exact (cycles_inst_inputAt k s t hrun).1

/-! ### One threshold and two samples (spec/41_sequencer.md R133) -/

/-- A count that rises by `d` moves by `d` relative to any threshold. -/
theorem subWrap_addWrap_left (w c d t : Nat) :
    subWrap w (addWrap w c d) t = addWrap w (subWrap w c t) d := by
  have hi : ((subWrap w (addWrap w c d) t : Nat) : Int) = (addWrap w (subWrap w c t) d : Nat) := by
    rw [coe_subWrap, addWrap, addWrap, Int.natCast_mod, Int.natCast_mod, Nat.cast_add, Nat.cast_add,
      coe_subWrap, Int.emod_sub_emod, Int.emod_add_emod]
    congr 1
    omega
  exact_mod_cast hi

/-- Settles O35: the first sample is in the far half of the range, so to be in the near half the
second one has wrapped, and it has wrapped by less than it rose. -/
theorem latenessIsLessThanTheIncrease : Obligations.LatenessIsLessThanTheIncrease := by
  intro w c t d hw hbefore hd hafter
  change reached w (addWrap w c d) t = true at hafter
  change 1 ≤ d ∧ subWrap w (addWrap w c d) t ≤ d - 1
  have hpos : 0 < 2 ^ (w - 1) := Nat.two_pow_pos _
  have hrange := two_pow_eq_double w hw
  have hlt := subWrap_lt w c t
  have hfar : 2 ^ (w - 1) ≤ subWrap w c t := by
    rw [← Bool.not_eq_true, reached_iff] at hbefore
    exact not_lt.1 hbefore
  rw [reached_iff, subWrap_addWrap_left, addWrap] at hafter
  rw [subWrap_addWrap_left, addWrap]
  have hwraps : 2 ^ w ≤ subWrap w c t + d := by
    by_contra hno
    rw [Nat.mod_eq_of_lt (not_le.1 hno)] at hafter
    omega
  rw [Nat.mod_eq_sub_mod hwraps, Nat.mod_eq_of_lt (by omega)]
  omega

/-- The bound for a threshold that is passed between two samples of a run. -/
theorem sampleAt_lateness (s : State) (threshold j : Nat)
    (hrise : s.riseAt j ≤ 2 ^ (s.inst.cfg.w - 1) - 1)
    (hbefore : reached s.inst.cfg.w (s.sampleAt j) threshold = false)
    (hafter : reached s.inst.cfg.w (s.sampleAt (j + 1)) threshold = true) :
    1 ≤ s.riseAt j ∧ subWrap s.inst.cfg.w (s.sampleAt (j + 1)) threshold ≤ s.riseAt j - 1 := by
  have hw : 1 ≤ s.inst.cfg.w := le_trans (by omega) s.inst.three_le_w
  rw [sampleAt_succ] at hafter ⊢
  exact latenessIsLessThanTheIncrease _ _ _ _ hw hbefore hrise hafter

/-! ### The rising edge (spec/70_reset_and_hazards.md R177) -/

/-- Settles O47: the step waits in the low part of the bit, so both samples are compared with one
mark. -/
theorem risingEdgeLatenessInLow : Obligations.RisingEdgeLatenessInLow := by
  intro s t hf hrst hbefore hrise hstep hafter
  obtain ⟨t', hstep', hsame⟩ :=
    exists_step_samePart s (.inr hf) hrst (by rwa [partEnd_of_low s hf])
  obtain rfl : t = t' := Host.Outcome.next.inj (hstep.symm.trans hstep')
  have hcyc : t.cyc = s.sampleAt 1 := step_sampleAt s t hstep 0
  rw [hsame.inst, hsame.mark, hcyc] at hafter ⊢
  exact ⟨hsame.fsm.trans hf, rfl, sampleAt_lateness s s.mark 0 hrise hbefore hafter⟩

/-! ### The falling edge (spec/70_reset_and_hazards.md R177) -/

/-- A reset edge drives the pin low, so the pin is high only after an edge with `rst = 0`. -/
theorem rst_eq_false_of_pin {s t : State} (hstep : step s = .next t) (hpin : t.pin = true) :
    s.input.rst = false := by
  cases hrst : s.input.rst
  case false => rfl
  case true =>
    rw [step_of_rst s hrst] at hstep
    cases hstep
    simp at hpin

/-- In `HIGH` the pin stays high only by a wait for the drop point. -/
theorem samePart_of_high_of_pin {s t : State} (hf : s.fsm = Fsm.high) (hstep : step s = .next t)
    (hpin : t.pin = true) : SamePart s t ∧ s.dropReached = false := by
  rw [step_of_high s (rst_eq_false_of_pin hstep hpin) hf] at hstep
  cases hstep
  cases hdrop : s.dropReached
  case false => exact ⟨samePart_nextCycle_afterPort s, rfl⟩
  case true => simp [hdrop] at hpin

/-- The first cycle of a bit is in its high part, and the bit's drop point is ahead of the sample at
which the bit starts. -/
theorem highPart_of_step {s t : State} {v : Byte} (hstart : s.startsBit = some v)
    (hstep : step s = .next t) (hpin : t.pin = true) :
    HighPart s.cyc v t ∧ reached t.inst.cfg.w s.cyc t.dropPoint = false := by
  obtain ⟨hmark, hsr, -, hhigh⟩ :=
    (markIsWrittenAtBitStartOnly s t (rst_eq_false_of_pin hstep hpin) hstep).1 v hstart
  have hinst := step_inst s t hstep
  have ht : HighPart s.cyc v t := ⟨hhigh, hpin, hsr, by rw [hinst]; exact hmark⟩
  have hzero : addWrap t.inst.cfg.w s.cyc 0 = s.cyc := hinst ▸ addWrap_zero_sampleAt s 0
  obtain ⟨hpos, hlt⟩ := t.inst.highFor_bounds v.msb
  have hahead := reached_addWrap t.inst s.cyc 0 _ (Nat.zero_le _) hlt.le
  rw [hzero, ← ht.dropPoint_eq, decide_eq_false (by omega)] at hahead
  exact ⟨ht, hahead⟩

/-- While the pin has been high since a bit started, the bit is in its high part, and the sample
before this cycle's had not reached the drop point. -/
theorem highPart_of_pinAfter {s t : State} {v : Byte} {m : Nat} (hstart : s.startsBit = some v)
    (hpin : ∀ i, 1 ≤ i → i ≤ m + 1 → pinAfter i s = some true)
    (hrun : cycles (m + 1) s = .next t) :
    HighPart s.cyc v t ∧ reached t.inst.cfg.w (s.sampleAt m) t.dropPoint = false := by
  have hpint : t.pin = true := by
    simpa [pinAfter_of_cycles hrun] using hpin (m + 1) (by omega) le_rfl
  induction m generalizing t with
  | zero =>
      obtain ⟨u, hu, hstep⟩ := cycles_succ_last 0 s t hrun
      cases hu
      exact highPart_of_step hstart hstep hpint
  | succ m ih =>
      obtain ⟨u, hu, hlast⟩ := cycles_succ_last (m + 1) s t hrun
      have hpinu : u.pin = true := by
        simpa [pinAfter_of_cycles hu] using hpin (m + 1) (by omega) (by omega)
      obtain ⟨hpart, -⟩ := ih (fun i hi him => hpin i hi (by omega)) hu hpinu
      obtain ⟨hsame, hdrop⟩ := samePart_of_high_of_pin hpart.fsm hlast hpint
      have hcyc : u.cyc = s.sampleAt (m + 1) := cycles_sampleAt (m + 1) s u hu 0
      refine ⟨hpart.of_samePart hsame, ?_⟩
      rw [hsame.inst, hsame.dropPoint, ← hcyc]
      exact hdrop

/-- Settles O46: the drop point is passed between the last two samples, and the block, which is
still in `HIGH`, drops the pin. -/
theorem fallingEdgeLateness : Obligations.FallingEdgeLateness := by
  intro s t v m hstart hw hrun hpin hreached
  obtain ⟨hpart, hbefore⟩ := highPart_of_pinAfter hstart hpin hrun
  have hinst := (cycles_inst_inputAt (m + 1) s t hrun).1
  have hcyc : t.cyc = s.sampleAt (m + 1) := cycles_sampleAt (m + 1) s t hrun 0
  have hlate : 1 ≤ s.riseAt m ∧ subWrap t.inst.cfg.w t.cyc t.dropPoint ≤ s.riseAt m - 1 := by
    rw [hinst] at hbefore
    rw [hinst, hcyc] at hreached ⊢
    exact sampleAt_lateness s t.dropPoint m (hw m (by omega)) hbefore hreached
  refine ⟨hlate.1, hlate.2, fun hrst => ?_⟩
  obtain ⟨u, hstep, -, hlow, -⟩ := exists_drop t hrst hpart.fsm hreached
  exact ⟨u, hstep, hlow⟩

end Sys2Proof.Machine
end
